-- ==== Sys2Proof/Word.lean ====
section
/-! DEFINITION. The machine's word and byte types (00_scope.md R9, R14). -/

namespace Sys2Proof

/-- A Word: "a 16-bit unsigned quantity" (R9). Arithmetic on it is modulo 2^16 (R14). -/
abbrev Word := BitVec 16

/-- A character code of the input or output port: one byte (R36, R37). -/
abbrev Byte := BitVec 8

/-- Sixteen bits written as the fields of a format, most significant part first (R13), are a Word. -/
def asWord {n : Nat} (bits : BitVec n) (h : n = 16 := by decide) : Word := bits.cast h

end Sys2Proof
end

