-- ==== Sys2Proof/Machine/Constants.lean ====
section
/-! DEFINITION. The numbers the spec takes from general knowledge of the LC-3 or decides itself: device addresses,
latched values, reset values, trap vectors. Each stands here once, under its own name. -/

namespace Sys2Proof.Machine

/-- PC_START: "the reference behavior always starts execution at 0x3000" (10_state.md R31). -/
def pcStart : Word := 0x3000
/-- GPR_RESET (10_state.md R32, D14). DESIGN CHOICE, log 3. -/
def gprReset : Word := 0x0000
/-- KBSR_ADDR (20_memory.md R45, D5). PRESUMED, log 6. -/
def kbsrAddr : Word := 0xFE00
/-- KBDR_ADDR (20_memory.md R45, D5). PRESUMED, log 6. -/
def kbdrAddr : Word := 0xFE02
/-- KBSR_READY, what a poll that finds a character latches (20_memory.md R47, D6). PRESUMED, log 6. -/
def kbsrReady : Word := 0x8000
/-- KBSR_IDLE, what a poll that finds none latches (20_memory.md R47, D6). PRESUMED, log 6. -/
def kbsrIdle : Word := 0x0000
/-- What a memory word holds that nothing has written (70_reset_and_hazards.md R156, D16). DESIGN CHOICE, log 2. -/
def unwritten : Word := 0x0000

/-- The trap vectors of 30_encoding.md R75 (D4). PRESUMED, log 5. -/
def vecGetc : BitVec 8 := 0x20
def vecOut : BitVec 8 := 0x21
def vecPuts : BitVec 8 := 0x22
def vecIn : BitVec 8 := 0x23
def vecPutsp : BitVec 8 := 0x24
def vecHalt : BitVec 8 := 0x25

/-- Whether a trap vector is one of the six of R75. -/
def isServiceVector (v : BitVec 8) : Bool :=
  v = vecGetc || v = vecOut || v = vecPuts || v = vecIn || v = vecPutsp || v = vecHalt

end Sys2Proof.Machine
end

