-- ==== Sys2Proof/Syntax.lean ====
section
/-! DEFINITION. The instruction syntax: one constructor per row of opcode_table.json (30_encoding.md R64 to R75). A
constructor holds the raw fields its format uses. Ignored bits (R77) are not held, but for the three rows whose fault
records the whole fetched Word (60_exceptions.md R135): `trapOther`, `rti` and `res` (log 26). -/

namespace Sys2Proof

/-- A general register R0 to R7, named by the unsigned value of a 3-bit field (R19, R63). -/
abbrev Reg := Fin 8

/-- The instructions of the block. -/
inductive Instr where
  /-- ADD, register form (R93). -/
  | addReg (dr sr1 sr2 : Reg)
  /-- ADD, immediate form (R94). -/
  | addImm (dr sr1 : Reg) (imm5 : BitVec 5)
  /-- AND, register form (R95). -/
  | andReg (dr sr1 sr2 : Reg)
  /-- AND, immediate form (R96). -/
  | andImm (dr sr1 : Reg) (imm5 : BitVec 5)
  /-- NOT (R97). -/
  | not (dr sr : Reg)
  /-- BR with the mask n, z, p as bits 2, 1, 0 of `nzp` (R66, R101). -/
  | br (nzp : BitVec 3) (off9 : BitVec 9)
  /-- JMP; RET when the register is R7 (R103, R104). -/
  | jmp (baseR : Reg)
  /-- JSR, the PC-relative call (R105). -/
  | jsr (off11 : BitVec 11)
  /-- JSRR, the call through a register (R106). -/
  | jsrr (baseR : Reg)
  /-- LD (R108). -/
  | ld (dr : Reg) (off9 : BitVec 9)
  /-- LDI (R109). -/
  | ldi (dr : Reg) (off9 : BitVec 9)
  /-- LDR (R110). -/
  | ldr (dr baseR : Reg) (off6 : BitVec 6)
  /-- LEA (R111). -/
  | lea (dr : Reg) (off9 : BitVec 9)
  /-- ST (R112). -/
  | st (sr : Reg) (off9 : BitVec 9)
  /-- STI (R113). -/
  | sti (sr : Reg) (off9 : BitVec 9)
  /-- STR (R114). -/
  | str (sr baseR : Reg) (off6 : BitVec 6)
  /-- TRAP GETC (R118). -/
  | trapGetc
  /-- TRAP OUT (R120). -/
  | trapOut
  /-- TRAP PUTS (R121). -/
  | trapPuts
  /-- TRAP IN (R123). -/
  | trapIn
  /-- TRAP PUTSP (R125). -/
  | trapPutsp
  /-- TRAP HALT (R126). -/
  | trapHalt
  /-- TRAP with any other vector (R129); `ign` is the ignored bits 11:8, which the fault records. -/
  | trapOther (ign : BitVec 4) (vec : BitVec 8)
  /-- RTI, reserved (R130); `ign` is the ignored bits 11:0, which the fault records. -/
  | rti (ign : BitVec 12)
  /-- RES, reserved (R131); `ign` is the ignored bits 11:0, which the fault records. -/
  | res (ign : BitVec 12)
  deriving DecidableEq, Repr

end Sys2Proof
end

