-- ==== Sys2Proof/WellFormed.lean ====
section
/-! DEFINITION. Which instruction terms stand for an encoding. Field widths are in the types, so the one check is that
the row "TRAP (other vector)" does not carry a vector of the six services (opcode_table.json: "applies only when no TRAP
row above matches"; 44_trap.md R129). -/

namespace Sys2Proof

/-- The term is what the decoder reads from some Word. -/
def Instr.wellFormed : Instr → Bool
  | .trapOther _ vec => !Machine.isServiceVector vec
  | .addReg _ _ _ | .addImm _ _ _ | .andReg _ _ _ | .andImm _ _ _ | .not _ _
  | .br _ _ | .jmp _ | .jsr _ | .jsrr _
  | .ld _ _ | .ldi _ _ | .ldr _ _ _ | .lea _ _ | .st _ _ | .sti _ _ | .str _ _ _
  | .trapGetc | .trapOut | .trapPuts | .trapIn | .trapPutsp | .trapHalt
  | .rti _ | .res _ => true

end Sys2Proof
end

