-- ==== Sys2Proof/Decode.lean ====
section
/-! DEFINITION. The decoder, "a pure function of the fetched Word" (40_execution_cycle.md R84; 30_encoding.md R62 to R78),
and the encoder written from the same formats. Opcode numbers, field positions and vectors are the published LC-3's, as
the spec adopts them (D1, D3, D4; PRESUMED, log 5). -/

namespace Sys2Proof

/-- A 3-bit register field names R0..R7 by its unsigned value (R63). -/
def regOfBits (b : BitVec 3) : Reg := ⟨b.toNat, b.isLt⟩

/-- The 3-bit field that names a register (R63). -/
def bitsOfReg (r : Reg) : BitVec 3 := BitVec.ofFin r

/-- Bits 15:12 (R62). -/
def opcodeField (w : Word) : BitVec 4 := w.extractLsb' 12 4
/-- Bits 11:9, DR or the SR of a store (R63). -/
def drField (w : Word) : Reg := regOfBits (w.extractLsb' 9 3)
/-- Bits 8:6, SR1, SR or BaseR (R63). -/
def srField (w : Word) : Reg := regOfBits (w.extractLsb' 6 3)
/-- Bits 2:0, SR2 (R63). -/
def sr2Field (w : Word) : Reg := regOfBits (w.extractLsb' 0 3)
/-- The mode flag of ADD and AND, bit 5 (R64). -/
def immMode (w : Word) : Bool := w.getLsbD 5
/-- The mode flag of JSR, bit 11 (R68). -/
def jsrMode (w : Word) : Bool := w.getLsbD 11
/-- imm5, bits 4:0 (R73). -/
def imm5Field (w : Word) : BitVec 5 := w.extractLsb' 0 5
/-- offset6, bits 5:0 (R73). -/
def off6Field (w : Word) : BitVec 6 := w.extractLsb' 0 6
/-- PCoffset9, bits 8:0 (R73). -/
def off9Field (w : Word) : BitVec 9 := w.extractLsb' 0 9
/-- PCoffset11, bits 10:0 (R73). -/
def off11Field (w : Word) : BitVec 11 := w.extractLsb' 0 11
/-- The mask nzp, bits 11:9 (R66). -/
def nzpField (w : Word) : BitVec 3 := w.extractLsb' 9 3
/-- trapvect8, bits 7:0 (R71). -/
def trapField (w : Word) : BitVec 8 := w.extractLsb' 0 8

/-- The TRAP sub-decoder's row, by bits 7:0 (R71, R75; bits 11:8 ignored, R77). -/
def decodeTrap (w : Word) : Instr :=
  let v := trapField w
  if v = Machine.vecGetc then .trapGetc
  else if v = Machine.vecOut then .trapOut
  else if v = Machine.vecPuts then .trapPuts
  else if v = Machine.vecIn then .trapIn
  else if v = Machine.vecPutsp then .trapPutsp
  else if v = Machine.vecHalt then .trapHalt
  else .trapOther (w.extractLsb' 8 4) v

/-- The decoder (R74, R84). `none` is the unknown opcode of 45_reserved.md R133, which no Word reaches (R78). -/
def decode (w : Word) : Option Instr :=
  match (opcodeField w).toNat with
  | 0x0 => some (.br (nzpField w) (off9Field w))
  | 0x1 => some (if immMode w then .addImm (drField w) (srField w) (imm5Field w)
                 else .addReg (drField w) (srField w) (sr2Field w))
  | 0x2 => some (.ld (drField w) (off9Field w))
  | 0x3 => some (.st (drField w) (off9Field w))
  | 0x4 => some (if jsrMode w then .jsr (off11Field w) else .jsrr (srField w))
  | 0x5 => some (if immMode w then .andImm (drField w) (srField w) (imm5Field w)
                 else .andReg (drField w) (srField w) (sr2Field w))
  | 0x6 => some (.ldr (drField w) (srField w) (off6Field w))
  | 0x7 => some (.str (drField w) (srField w) (off6Field w))
  | 0x8 => some (.rti (w.extractLsb' 0 12))
  | 0x9 => some (.not (drField w) (srField w))
  | 0xA => some (.ldi (drField w) (off9Field w))
  | 0xB => some (.sti (drField w) (off9Field w))
  | 0xC => some (.jmp (srField w))
  | 0xD => some (.res (w.extractLsb' 0 12))
  | 0xE => some (.lea (drField w) (off9Field w))
  | 0xF => some (decodeTrap w)
  | _ => none

/-- The Word of an instruction (R64 to R72). Ignored bits take the published LC-3 values (R77; log 8). -/
def encode : Instr → Word
  | .addReg dr sr1 sr2 => asWord (0x1#4 ++ bitsOfReg dr ++ bitsOfReg sr1 ++ 0b000#3 ++ bitsOfReg sr2)
  | .addImm dr sr1 imm => asWord (0x1#4 ++ bitsOfReg dr ++ bitsOfReg sr1 ++ 0b1#1 ++ imm)
  | .andReg dr sr1 sr2 => asWord (0x5#4 ++ bitsOfReg dr ++ bitsOfReg sr1 ++ 0b000#3 ++ bitsOfReg sr2)
  | .andImm dr sr1 imm => asWord (0x5#4 ++ bitsOfReg dr ++ bitsOfReg sr1 ++ 0b1#1 ++ imm)
  | .not dr sr => asWord (0x9#4 ++ bitsOfReg dr ++ bitsOfReg sr ++ 0b111111#6)
  | .br nzp off => asWord (0x0#4 ++ nzp ++ off)
  | .jmp b => asWord (0xC#4 ++ 0b000#3 ++ bitsOfReg b ++ 0b000000#6)
  | .jsr off => asWord (0x4#4 ++ 0b1#1 ++ off)
  | .jsrr b => asWord (0x4#4 ++ 0b000#3 ++ bitsOfReg b ++ 0b000000#6)
  | .ld dr off => asWord (0x2#4 ++ bitsOfReg dr ++ off)
  | .ldi dr off => asWord (0xA#4 ++ bitsOfReg dr ++ off)
  | .ldr dr b off => asWord (0x6#4 ++ bitsOfReg dr ++ bitsOfReg b ++ off)
  | .lea dr off => asWord (0xE#4 ++ bitsOfReg dr ++ off)
  | .st sr off => asWord (0x3#4 ++ bitsOfReg sr ++ off)
  | .sti sr off => asWord (0xB#4 ++ bitsOfReg sr ++ off)
  | .str sr b off => asWord (0x7#4 ++ bitsOfReg sr ++ bitsOfReg b ++ off)
  | .trapGetc => asWord (0xF0#8 ++ Machine.vecGetc)
  | .trapOut => asWord (0xF0#8 ++ Machine.vecOut)
  | .trapPuts => asWord (0xF0#8 ++ Machine.vecPuts)
  | .trapIn => asWord (0xF0#8 ++ Machine.vecIn)
  | .trapPutsp => asWord (0xF0#8 ++ Machine.vecPutsp)
  | .trapHalt => asWord (0xF0#8 ++ Machine.vecHalt)
  | .trapOther ign vec => asWord (0xF#4 ++ ign ++ vec)
  | .rti ign => asWord (0x8#4 ++ ign)
  | .res ign => asWord (0xD#4 ++ ign)

/-- The "mask" of the instruction's row of opcode_table.json: the bits that select the row. -/
def Instr.rowMask : Instr → Word
  | .addReg _ _ _ | .addImm _ _ _ | .andReg _ _ _ | .andImm _ _ _ => 0xF020
  | .not _ _ | .br _ _ | .jmp _ | .ld _ _ | .ldi _ _ | .ldr _ _ _ | .lea _ _
  | .st _ _ | .sti _ _ | .str _ _ _ | .trapOther _ _ | .rti _ | .res _ => 0xF000
  | .jsr _ | .jsrr _ => 0xF800
  | .trapGetc | .trapOut | .trapPuts | .trapIn | .trapPutsp | .trapHalt => 0xF0FF

/-- The "match" of the instruction's row of opcode_table.json: the value of the bits that select the row. -/
def Instr.rowMatch : Instr → Word
  | .addReg _ _ _ => 0x1000
  | .addImm _ _ _ => 0x1020
  | .andReg _ _ _ => 0x5000
  | .andImm _ _ _ => 0x5020
  | .not _ _ => 0x9000
  | .br _ _ => 0x0000
  | .jmp _ => 0xC000
  | .jsr _ => 0x4800
  | .jsrr _ => 0x4000
  | .ld _ _ => 0x2000
  | .ldi _ _ => 0xA000
  | .ldr _ _ _ => 0x6000
  | .lea _ _ => 0xE000
  | .st _ _ => 0x3000
  | .sti _ _ => 0xB000
  | .str _ _ _ => 0x7000
  | .trapGetc => 0xF020
  | .trapOut => 0xF021
  | .trapPuts => 0xF022
  | .trapIn => 0xF023
  | .trapPutsp => 0xF024
  | .trapHalt => 0xF025
  | .trapOther _ _ => 0xF000
  | .rti _ => 0x8000
  | .res _ => 0xD000

/-- The bits of a Word that its instruction does not ignore (R77). The whole Word counts for the rows whose fault records
it (60_exceptions.md R135). -/
def Instr.usedMask : Instr → Word
  | .addReg _ _ _ | .andReg _ _ _ => 0xFFE7
  | .addImm _ _ _ | .andImm _ _ _ | .br _ _ | .jsr _ | .ld _ _ | .ldi _ _ | .ldr _ _ _ | .lea _ _
  | .st _ _ | .sti _ _ | .str _ _ _ | .trapOther _ _ | .rti _ | .res _ => 0xFFFF
  | .not _ _ => 0xFFC0
  | .jmp _ => 0xF1C0
  | .jsrr _ => 0xF9C0
  | .trapGetc | .trapOut | .trapPuts | .trapIn | .trapPutsp | .trapHalt => 0xF0FF

/-- The instructions that change `pc` after the fetch (10_state.md R22). -/
def Instr.isControlTransfer : Instr → Bool
  | .br _ _ | .jmp _ | .jsr _ | .jsrr _ => true
  | .addReg _ _ _ | .addImm _ _ _ | .andReg _ _ _ | .andImm _ _ _ | .not _ _
  | .ld _ _ | .ldi _ _ | .ldr _ _ _ | .lea _ _ | .st _ _ | .sti _ _ | .str _ _ _
  | .trapGetc | .trapOut | .trapPuts | .trapIn | .trapPutsp | .trapHalt | .trapOther _ _
  | .rti _ | .res _ => false

/-- TRAP with any vector (44_trap.md R117). -/
def Instr.isTrap : Instr → Bool
  | .trapGetc | .trapOut | .trapPuts | .trapIn | .trapPutsp | .trapHalt | .trapOther _ _ => true
  | .addReg _ _ _ | .addImm _ _ _ | .andReg _ _ _ | .andImm _ _ _ | .not _ _
  | .br _ _ | .jmp _ | .jsr _ | .jsrr _
  | .ld _ _ | .ldi _ _ | .ldr _ _ _ | .lea _ _ | .st _ _ | .sti _ _ | .str _ _ _
  | .rti _ | .res _ => false

/-- The instructions that use the output port (10_state.md R37). -/
def Instr.emitsOutput : Instr → Bool
  | .trapOut | .trapPuts | .trapIn | .trapPutsp | .trapHalt => true
  | .addReg _ _ _ | .addImm _ _ _ | .andReg _ _ _ | .andImm _ _ _ | .not _ _
  | .br _ _ | .jmp _ | .jsr _ | .jsrr _
  | .ld _ _ | .ldi _ _ | .ldr _ _ _ | .lea _ _ | .st _ _ | .sti _ _ | .str _ _ _
  | .trapGetc | .trapOther _ _ | .rti _ | .res _ => false

/-- The instruction the decoder reads from a table row's bits. Every row has 16 bits, one Word (R61); bits above `nbits`
are zero. -/
def decodeTableWord (nbits w : Nat) : Option Instr := decode (BitVec.ofNat 16 (w % 2 ^ nbits))

end Sys2Proof
end

