-- ==== Sys2Proof/Config.lean ====
section
/-! DEFINITION. What the spec leaves OPEN (00_scope.md R12, 92_eei_decisions.md D8, D12, D19, D20): the types of the
open parameters, and one constant with no body for each, so that nothing can be proved of its value. -/

namespace Sys2Proof

/-- The two readings of CHAR_EXT, how GETC and IN widen a code 0x80..0xFF (44_trap.md R119, D12). -/
inductive CharExt where
  | zext
  | sext
  deriving DecidableEq, Repr, Inhabited

/-- The two values of UNKNOWN_TRAP_POLICY (44_trap.md R129, D8). -/
inductive TrapPolicy where
  | fault
  | noop
  deriving DecidableEq, Repr, Inhabited

/-- The open parameters that running instructions use. "A model takes each OPEN row as an argument" (R12): this record
is that argument, held in State, and no step writes it (log 9). -/
structure Params where
  /-- IN_PROMPT, the bytes TRAP IN emits before it reads (R124). -/
  inPrompt : List Byte
  /-- HALT_NOTICE, the bytes TRAP HALT emits (R127). -/
  haltNotice : List Byte
  /-- CANCEL_NOTICE, the bytes emitted on entering CANCELLED (R90). -/
  cancelNotice : List Byte
  /-- CHAR_EXT (R119). -/
  charExt : CharExt
  /-- UNKNOWN_TRAP_POLICY (R129). -/
  unknownTrap : TrapPolicy
  deriving DecidableEq, Repr

namespace Config

/-- Free value: IN_PROMPT (R124, D19; log 9). -/
opaque inPrompt : List Byte
/-- Free value: HALT_NOTICE (R127, D19; log 9). -/
opaque haltNotice : List Byte
/-- Free value: CANCEL_NOTICE (R90, D19; log 9). -/
opaque cancelNotice : List Byte
/-- Free value: CHAR_EXT (R119, D12; log 9). -/
opaque charExt : CharExt
/-- Free value: UNKNOWN_TRAP_POLICY (R129, D8; log 9). -/
opaque unknownTrap : TrapPolicy

/-- The open parameters of an actual block: every one a free value (log 9). -/
def params : Params := ⟨inPrompt, haltNotice, cancelNotice, charExt, unknownTrap⟩

/-- Free value: UNKNOWN_OPCODE_DIAG(instr), the diagnostic of the unreachable unknown-opcode stop (R133, D19; log 10). -/
opaque unknownOpcodeDiag : Word → List Byte

/-- Free value behind EXIT_ABORT (R136, D20; log 18). -/
opaque exitAbortLessOne : Nat
/-- Free value behind EXIT_CANCEL (R136, D20; log 18). -/
opaque exitCancelLessOne : Nat
/-- Free value behind EXIT_STARTUP (R136, D20; log 18). -/
opaque exitStartupLessOne : Nat
/-- Free value: EXIT_UNKNOWN (R136, D20; log 18). -/
opaque exitUnknown : Nat

/-- EXIT_ABORT, "a non-zero OPEN value" (R136). -/
def exitAbort : Nat := exitAbortLessOne + 1
/-- EXIT_CANCEL, "a non-zero OPEN value" (R136). -/
def exitCancel : Nat := exitCancelLessOne + 1
/-- EXIT_STARTUP, "a non-zero OPEN value" (R136). -/
def exitStartup : Nat := exitStartupLessOne + 1

end Config

end Sys2Proof
end

