-- ==== Sys2Proof/Machine/State.lean ====
section
/-! DEFINITION. The state of the block as plain data (10_state.md R19 to R35; 20_memory.md R41), the reasons a step can
stop, and the state after reset. -/

namespace Sys2Proof.Machine

/-- The condition flag: "one of exactly three mutually exclusive states" (R23). -/
inductive Cond where
  | negative
  | zero
  | positive
  deriving DecidableEq, Repr

/-- The fault kinds of 60_exceptions.md R135. -/
inductive FaultKind where
  /-- RESERVED_OPCODE, raised by RTI and RES (R130, R131). -/
  | reservedOpcode
  /-- UNKNOWN_OPCODE, the unreachable stop (R133). -/
  | unknownOpcode
  /-- UNKNOWN_TRAP, an unknown vector under policy `fault` (R129). -/
  | unknownTrap
  deriving DecidableEq, Repr

/-- The state of the execution loop (R27): running, or one of three terminal states (R88). -/
inductive RunState where
  | running
  | halted
  /-- FAULTED(kind, info); `info` is the fetched instruction Word (R135). -/
  | faulted (kind : FaultKind) (info : Word)
  | cancelled
  deriving DecidableEq, Repr

/-- A trap service whose step is not over: the block is held in an InRead (40_execution_cycle.md R91), or is inside a
string in which no zero word has been found (44_trap.md R122). -/
inductive Service where
  /-- GETC waits for a character. -/
  | getc
  /-- IN has emitted its prompt and waits for a character. -/
  | inn
  /-- PUTS goes on reading at this address. -/
  | puts (a : Word)
  /-- PUTSP goes on reading at this address. -/
  | putsp (a : Word)
  deriving DecidableEq, Repr

/-- One character code of the host's sequence behind the input port (R28). `unseen` is how many polls will still find
that it has not arrived: 0 means it is pending now. The number is the draw of D27 (log 11). -/
structure Key where
  unseen : Nat
  code : Byte
  deriving DecidableEq, Repr

/-- One listed memory word: its address and its value. The unit of addressing is the Word (R10, R41; log 1). -/
abbrev Cell := Nat × Word

/-- The memory array M: the words that differ from `unwritten`, addresses strictly rising (Ops: `Memory.wf`). -/
abbrev Memory := List Cell

/-- The state of the block. -/
structure State where
  /-- x[0..7] (R19). -/
  regs : Vector Word 8
  /-- The program counter; while an instruction executes, the address of the next word (R22). -/
  pc : Word
  /-- The condition flag (R23). -/
  cond : Cond
  /-- M[0x0000..0xFFFF], KBSR and KBDR among its words (R41, R45). -/
  mem : Memory
  /-- The state of the execution loop (R27). -/
  run : RunState
  /-- The bytes emitted on the output port, oldest first (R29). -/
  out : List Byte
  /-- The host's sequence of character codes behind the input port, oldest first (R28). -/
  input : List Key
  /-- The host's cancellation (R39, R90): none raised, or raised so that it takes effect after this many more primitive
  actions. MODEL's own form of the free point of R90 (log 12). -/
  cancel : Option Nat
  /-- The trap service that is being held or repeated, if any (R91, R122; logs 13 and 14). -/
  inflight : Option Service
  /-- The open parameters (R12; log 9); no step writes them. -/
  params : Params
  deriving DecidableEq, Repr

/-- Why a step has no next state. -/
inductive Fault where
  /-- Raised by `step` alone, in a state whose `run` is HALTED, FAULTED or CANCELLED: "in a terminal state the block has no
  step" (R88; log 15). Safe: the spec gives no step either. -/
  | notRunning
  deriving DecidableEq, Repr

/-- Why an instruction has no meaning. -/
inductive Refusal where
  /-- An instruction that has no meaning yet, by its mnemonic; raised by `exec`'s refused arms, of which there is none now.
  Safe. -/
  | notModelled (mnemonic : String)
  deriving DecidableEq, Repr

/-- What a meaning and a step answer. -/
abbrev Result := Host.Outcome State Fault Refusal

/-- The state after reset with no image loaded (10_state.md R31 to R35; 70_reset_and_hazards.md R155). The registers and
`cond` take the values of R32 and R33 (D14, D15; logs 3 and 4), memory lists nothing (D16; log 2), the host has supplied
and asked for nothing (log 22), and the open parameters are free values (log 9). -/
def State.reset : State where
  regs := Vector.replicate 8 gprReset
  pc := pcStart
  cond := .zero
  mem := []
  run := .running
  out := []
  input := []
  cancel := none
  inflight := none
  params := Config.params

end Sys2Proof.Machine
end

