-- ==== Sys2Proof/Machine/Flags.lean ====
section
/-! DEFINITION. The condition flag: how it is computed from a Word and how BR reads it (10_state.md R23 to R26). -/

namespace Sys2Proof.Machine

/-- The flag that SetCC(v) writes (R25). -/
def condOf (v : Word) : Cond :=
  if v = 0x0000 then .zero
  else if v.getLsbD 15 then .negative
  else .positive

/-- The 3-bit one-hot value of the flag for BR's mask test (R24, D2). PRESUMED, log 7. -/
def Cond.bits : Cond → BitVec 3
  | .negative => 0b100
  | .zero => 0b010
  | .positive => 0b001

/-- Whether BR with this mask is taken: "(conditionMask & currentFlag) ≠ 0" (42_control.md R101, R102). -/
def branchTaken (nzp : BitVec 3) (c : Cond) : Bool := nzp &&& c.bits != 0b000

/-- The flag writers (R26): ADD, AND, NOT, LD, LDI, LDR, LEA, and the services GETC and IN. -/
def writesCond (i : Instr) : Bool :=
  match i with
  | .addReg _ _ _ | .addImm _ _ _ | .andReg _ _ _ | .andImm _ _ _ | .not _ _
  | .ld _ _ | .ldi _ _ | .ldr _ _ _ | .lea _ _ | .trapGetc | .trapIn => true
  | .br _ _ | .jmp _ | .jsr _ | .jsrr _ | .st _ _ | .sti _ _ | .str _ _ _
  | .trapOut | .trapPuts | .trapPutsp | .trapHalt | .trapOther _ _ | .rti _ | .res _ => false

end Sys2Proof.Machine
end

