-- ==== Sys2Proof/Machine/Operands.lean ====
section
/-! DEFINITION. Operand forms: sign extension of the immediate and offset fields (00_scope.md R15, 30_encoding.md R73),
the addressing modes (43_load_store.md R115) and the byte views of a Word (44_trap.md R119 to R125). -/

namespace Sys2Proof.Machine

/-- `sext_k(f)`: bits above k-1 copy bit k-1 (R15). -/
def sext {k : Nat} (f : BitVec k) : Word := f.signExtend 16

/-- `zext_16(f)`: bits above the field are 0 (R15). -/
def zext {k : Nat} (f : BitVec k) : Word := f.setWidth 16

/-- A PC-relative address: `pc + offset`, where `pc` already points past the instruction, modulo 2^16 (R42, R73, R115). -/
def pcRelative {k : Nat} (s : State) (off : BitVec k) : Word := s.pc + sext off

/-- A register's value, x[r] (R19). -/
def State.reg (s : State) (r : Reg) : Word := s.regs[r]

/-- A base+offset address: `x[BaseR] + offset6`, modulo 2^16 (R42, R73, R115). -/
def baseOffset (s : State) (b : Reg) (off6 : BitVec 6) : Word := s.reg b + sext off6

/-- Bits 7:0 of a Word, the byte OUT, PUTS and PUTSP emit first (R120, R121, R125). -/
def lowByte (w : Word) : Byte := w.extractLsb' 0 8

/-- Bits 15:8 of a Word (R125). -/
def highByte (w : Word) : Byte := w.extractLsb' 8 8

/-- The bytes PUTSP emits for one Word: the low byte always, the high byte if it is not zero (R125). -/
def packedBytes (w : Word) : List Byte :=
  if highByte w != 0x00 then [lowByte w, highByte w] else [lowByte w]

/-- `CharToWord(c)` for GETC and IN: zero-extended below 0x80, by the open parameter CHAR_EXT from 0x80 on (R119). -/
def charToWord (e : CharExt) (c : Byte) : Word :=
  if c.toNat < 0x80 then zext c
  else match e with
    | .zext => zext c
    | .sext => sext c

/-- The link register (10_state.md R21). -/
def linkReg : Reg := 7

/-- `x[0]`, the register of the trap services (44_trap.md R118 to R125). -/
def serviceReg : Reg := 0

/-- The general registers an instruction writes (10_state.md R20). -/
def writtenRegs (i : Instr) : List Reg :=
  match i with
  | .addReg dr _ _ | .addImm dr _ _ | .andReg dr _ _ | .andImm dr _ _ | .not dr _
  | .ld dr _ | .ldi dr _ | .ldr dr _ _ | .lea dr _ => [dr]
  | .jsr _ | .jsrr _ | .trapOut | .trapPuts | .trapPutsp | .trapHalt | .trapOther _ _ => [linkReg]
  | .trapGetc | .trapIn => [linkReg, serviceReg]
  | .br _ _ | .jmp _ | .st _ _ | .sti _ _ | .str _ _ _ | .rti _ | .res _ => []

end Sys2Proof.Machine
end

