-- ==== Sys2Proof/Machine/Ops.lean ====
section
/-! DEFINITION. The named operations over memory, registers and ports (00_scope.md R16), entering a fault, entering
CANCELLED and the trap entry. First what each does to a State; then the primitive actions, each of which is a boundary
at which the host's cancellation may take effect (40_execution_cycle.md R90). -/

namespace Sys2Proof.Machine

/-! ### The memory array -/

/-- The word at an address: the listed one, else `unwritten` (20_memory.md R41, R156). -/
def Memory.read : Memory → Nat → Word
  | [], _ => unwritten
  | (b, w) :: rest, a => if a = b then w else Memory.read rest a

/-- List a word at its place among rising addresses, in place of the one listed there. -/
def Memory.insert : Memory → Nat → Word → Memory
  | [], a, v => [(a, v)]
  | (b, w) :: rest, a, v =>
    if a < b then (a, v) :: (b, w) :: rest
    else if a = b then (a, v) :: rest
    else (b, w) :: Memory.insert rest a v

/-- Store a word, keeping the canonical form: a word equal to `unwritten` is not listed. -/
def Memory.write (m : Memory) (a : Nat) (v : Word) : Memory :=
  if v = unwritten then m.filter (fun c => c.1 != a) else Memory.insert m a v

/-- The canonical form: addresses strictly rising, each within the 65536 words (R10), no entry equal to what an unlisted
address reads as. -/
abbrev Memory.wf (m : Memory) : Prop :=
  m.Pairwise (fun c d => c.1 < d.1) ∧ ∀ c ∈ m, c.1 < 65536 ∧ c.2 ≠ unwritten

/-! ### What the operations do to a State -/

/-- `x[r] <- v` (R19). -/
def State.setReg (s : State) (r : Reg) (v : Word) : State := { s with regs := s.regs.set r v }

/-- `pc <- v` (R22). -/
def State.setPc (s : State) (v : Word) : State := { s with pc := v }

/-- `cond <- c` (R23). -/
def State.setCond (s : State) (c : Cond) : State := { s with cond := c }

/-- `run <- r` (R27). -/
def State.setRun (s : State) (r : RunState) : State := { s with run := r }

/-- The service in flight (logs 13 and 14). -/
def State.setInflight (s : State) (p : Option Service) : State := { s with inflight := p }

/-- `M[a]` with no side effect (20_memory.md R41, R44). -/
def State.word (s : State) (a : Word) : Word := s.mem.read a.toNat

/-- `M[a] <- v`, an unconditional store (20_memory.md R48). -/
def State.store (s : State) (a v : Word) : State := { s with mem := s.mem.write a.toNat v }

/-- Bytes appended to the output, in order (10_state.md R29, R37). -/
def State.emit (s : State) (bs : List Byte) : State := { s with out := s.out ++ bs }

/-- Set what the host has still to supply (10_state.md R28). -/
def State.setInput (s : State) (ks : List Key) : State := { s with input := ks }

/-- `InAvail()`: whether a character is pending (10_state.md R28, R36). -/
def State.inAvail (s : State) : Bool :=
  match s.input with
  | [] => false
  | k :: _ => k.unseen == 0

/-- `KbPoll()` (20_memory.md R46): a pending character is consumed and latched in KBDR, sign-extended, and KBSR says
READY; otherwise KBSR says idle, and a character still to come is one poll nearer (log 11). -/
def State.poll (s : State) : State :=
  match s.input with
  | [] => s.store kbsrAddr kbsrIdle
  | k :: ks =>
    if s.inAvail then
      ((s.setInput ks).store kbsrAddr kbsrReady).store kbdrAddr (sext k.code)
    else (s.setInput (⟨k.unseen - 1, k.code⟩ :: ks)).store kbsrAddr kbsrIdle

/-- The side effect of `MemRead(a, 1)`: a poll if the address is KBSR_ADDR, nothing otherwise (20_memory.md R43, R53). -/
def State.afterRead (s : State) (a : Word) : State := if a = kbsrAddr then s.poll else s

/-- What `MemRead(a, 1)` returns: the word after the side effect (20_memory.md R43). -/
def State.readValue (s : State) (a : Word) : Word := (s.afterRead a).word a

/-! ### The host's cancellation -/

/-- No cancellation takes effect within the next k primitive actions (40_execution_cycle.md R90; log 12). -/
def State.quiet (s : State) (k : Nat) : Prop := ∀ n, s.cancel = some n → k ≤ n

/-- The state with k primitive actions counted off the host's cancellation, and nothing else changed. -/
def State.spend (s : State) (k : Nat) : State := { s with cancel := s.cancel.map (· - k) }

/-- Entering CANCELLED: `run` is terminal and CANCEL_NOTICE is emitted; the request is served (R90; logs 12 and 19). -/
def State.enterCancelled (s : State) : State :=
  { s with run := .cancelled, cancel := none, out := s.out ++ s.params.cancelNotice }

/-! ### The primitive actions -/

/-- Why an instruction ended before the end of its rule. -/
inductive Stop where
  /-- Cancellation took effect (R90). -/
  | cancelled
  /-- It raised a fault (R87). -/
  | faulted
  /-- It is held in an InRead (R91) or in an endless string (R122). -/
  | held
  deriving DecidableEq, Repr

/-- What statements answer: `ok` with a value and the state they leave, or `error` with the state in which the instruction
ended early. -/
abbrev Ended := EStateM.Result Stop State

/-- Statements of a rule's pseudocode, run in the order written (R17). -/
abbrev Exec := EStateM Stop State

/-- One primitive action: cancellation may take effect before it (R90); else the action happens whole. -/
def primitive {α : Type} (body : State → Ended α) : Exec α := fun s =>
  match s.cancel with
  | none => body s
  | some 0 => .error .cancelled s.enterCancelled
  | some (n + 1) => body { s with cancel := some n }

/-- A primitive action that changes the state and always succeeds. -/
def act (f : State → State) : Exec Unit := primitive fun s => .ok () (f s)

/-- Read a value of the state; no primitive action of R90. -/
def look {α : Type} (f : State → α) : Exec α := fun s => .ok (f s) s

/-- Write a general register (R16, R19). -/
def setReg (r : Reg) (v : Word) : Exec Unit := act (·.setReg r v)

/-- Write the program counter (R16, R22). -/
def setPc (v : Word) : Exec Unit := act (·.setPc v)

/-- `SetCC(v)` (R25). -/
def setCC (v : Word) : Exec Unit := act (·.setCond (condOf v))

/-- `x[DR] <- v; SetCC(v)`, the end of every instruction that defines a destination register (R26). -/
def writeResult (dr : Reg) (v : Word) : Exec Unit := do
  setReg dr v
  setCC v

/-- `MemRead(a, 1)` (20_memory.md R43). -/
def memRead (a : Word) : Exec Word := primitive fun s => .ok (s.readValue a) (s.afterRead a)

/-- `RawRead(a)` (20_memory.md R44). -/
def rawRead (a : Word) : Exec Word := primitive fun s => .ok (s.word a) s

/-- `MemWrite(a, 1, v)` (20_memory.md R48). -/
def memWrite (a v : Word) : Exec Unit := act (·.store a v)

/-- `OutByte(b)` (10_state.md R37). `OutFlush()` changes no state (R29, D23; log 24), so it has no operation. -/
def outByte (b : Byte) : Exec Unit := act (·.emit [b])

/-- `for each byte b: OutByte(b)` (44_trap.md R123, R126). -/
def outBytes : List Byte → Exec Unit
  | [] => pure ()
  | b :: bs => do
    outByte b
    outBytes bs

/-- `InRead()` for the service that is left in flight while it waits: the oldest character is consumed; while the host has
none to supply the step is held (10_state.md R36, 40_execution_cycle.md R91; log 13). -/
def inRead (p : Service) : Exec Byte := primitive fun s =>
  match s.input with
  | [] => .error .held (s.setInflight (some p))
  | k :: ks => .ok k.code (s.setInput ks)

/-- `raise Fault(kind, info)`: enter FAULTED and end the instruction at once (40_execution_cycle.md R87, R144). -/
def raiseFault (kind : FaultKind) (info : Word) : Exec Unit :=
  primitive fun s => .error .faulted (s.setRun (.faulted kind info))

/-- `halt()` (40_execution_cycle.md R86). -/
def halt : Exec Unit := act (·.setRun .halted)

/-- Save the return address: `x[7] <- pc`, the entry of TRAP and of the calls (44_trap.md R117, R141; 42_control.md R105). -/
def saveReturn : Exec Unit := do
  setReg linkReg (← look (·.pc))

/-- The state in which an instruction ends, at the end of its rule or early. -/
def endState {α : Type} : Ended α → State
  | .ok _ s => s
  | .error _ s => s

/-- Run a rule's statements as the meaning of an instruction. Every early end is a state the spec describes, so the answer
is always a next state (60_exceptions.md R137; log 15). -/
def perform (m : Exec Unit) (s : State) : Result := .next (endState (m s))

/-- `instr <- MemRead(pc, 1); pc <- pc + 1` (40_execution_cycle.md R81 to R83). -/
def fetch : Exec Word := do
  let pc ← look (·.pc)
  let w ← memRead pc
  setPc (pc + 1)
  return w

/-- The unknown-opcode stop: the diagnostic, then FAULTED(UNKNOWN_OPCODE, instr) (45_reserved.md R133; log 10). -/
def unknownOpcode (w : Word) (s : State) : Result := perform (do
  outBytes (Config.unknownOpcodeDiag w)
  raiseFault .unknownOpcode w) s

/-! ### Outcomes and the host's ports -/

/-- The numeric code of a fault kind (60_exceptions.md R135). -/
def FaultKind.code : FaultKind → Nat
  | .reservedOpcode => 1
  | .unknownOpcode => 2
  | .unknownTrap => 3

/-- The address of the instruction that faulted, `pc - 1` mod 2^16 (60_exceptions.md R135). -/
def State.faultAddress (s : State) : Word := s.pc - 1

/-- The exit status, once `run` is terminal (60_exceptions.md R136, 10_state.md R40; log 18). -/
def exitStatus : RunState → Option Nat
  | .running => none
  | .halted => some 0
  | .faulted .reservedOpcode _ => some Config.exitAbort
  | .faulted .unknownOpcode _ => some Config.exitUnknown
  | .faulted .unknownTrap _ => some Config.exitAbort
  | .cancelled => some Config.exitCancel

/-- The host supplies a character (10_state.md R28, R36), which is pending at once. -/
def State.hostKey (s : State) (c : Byte) : State := s.setInput (s.input ++ [⟨0, c⟩])

/-- The point at which cancellation takes effect once it is raised for n more primitive actions. DESIGN CHOICE, log 12: the
spec speaks of one request only (R39, R90, R140) and does not say what a second one does while the first is pending; here
the earlier point stands, so a second request never puts off the first. -/
def cancelPoint (pending : Option Nat) (n : Nat) : Nat :=
  match pending with
  | none => n
  | some m => min m n

/-- The host raises cancellation (10_state.md R39), to take effect after n more primitive actions; a request already pending
is not put off (DESIGN CHOICE, log 12). "Once `run` is terminal, a later cancellation has no effect" (60_exceptions.md
R138). -/
def State.hostCancel (s : State) (n : Nat) : State :=
  match s.run with
  | .running => { s with cancel := some (cancelPoint s.cancel n) }
  | .halted | .faulted _ _ | .cancelled => s

end Sys2Proof.Machine
end

