-- ==== Sys2Proof/Machine/Boot.lean ====
section
/-! DEFINITION. The image-load port: the image file, the load into memory, startup errors (70_reset_and_hazards.md R151 to
R157). The loader itself is outside the block (00_scope.md R5); this is the interface the spec keeps of it. -/

namespace Sys2Proof.Machine

/-- The file's words, big-endian; a trailing odd byte is ignored (R152). -/
def fileWords : List Byte → List Word
  | hi :: lo :: rest => (hi ++ lo) :: fileWords rest
  | [_] => []
  | [] => []

/-- Copy words from an address on, in order, up to 0xFFFF; words beyond that are dropped (R153, R154). -/
def Memory.load : Memory → Nat → List Word → Memory
  | m, _, [] => m
  | m, a, w :: ws => if a < 65536 then Memory.load (m.write a w) (a + 1) ws else m

/-- What startup leads to (R151). -/
inductive Startup where
  /-- The image is loaded and the block is at reset. -/
  | ready (s : State)
  /-- A startup error: the block never reaches RUNNING. -/
  | error
  deriving DecidableEq, Repr

/-- Reset with an image file (R151 to R157). `none` is an image argument or file that is missing or unreadable. The entry
point does not depend on the origin (R157). -/
def boot (file : Option (List Byte)) : Startup :=
  match file with
  | none => .error
  | some bytes =>
    match fileWords bytes with
    | [] => .error
    | origin :: ws => .ready { State.reset with mem := Memory.load [] origin.toNat ws }

/-- The exit status of a startup (60_exceptions.md R136): only an error has one before the first step. -/
def Startup.exitStatus : Startup → Option Nat
  | .ready _ => none
  | .error => some Config.exitStartup

end Sys2Proof.Machine
end

