-- ==== Sys2Proof/Machine/Alu.lean ====
section
/-! DEFINITION. The meanings of ADD, AND and NOT (41_alu.md). Arithmetic is modulo 2^16 with no trap (R98). -/

namespace Sys2Proof.Machine

/-- ADD, register form (R93). -/
def execAddReg (dr sr1 sr2 : Reg) (s : State) : Result := perform (do
  let a ← look (·.reg sr1)
  let b ← look (·.reg sr2)
  writeResult dr (a + b)) s

/-- ADD, immediate form (R94). -/
def execAddImm (dr sr1 : Reg) (imm5 : BitVec 5) (s : State) : Result := perform (do
  let a ← look (·.reg sr1)
  writeResult dr (a + sext imm5)) s

/-- AND, register form (R95). -/
def execAndReg (dr sr1 sr2 : Reg) (s : State) : Result := perform (do
  let a ← look (·.reg sr1)
  let b ← look (·.reg sr2)
  writeResult dr (a &&& b)) s

/-- AND, immediate form (R96). -/
def execAndImm (dr sr1 : Reg) (imm5 : BitVec 5) (s : State) : Result := perform (do
  let a ← look (·.reg sr1)
  writeResult dr (a &&& sext imm5)) s

/-- NOT (R97). -/
def execNot (dr sr : Reg) (s : State) : Result := perform (do
  let a ← look (·.reg sr)
  writeResult dr (~~~a)) s

end Sys2Proof.Machine
end

