-- ==== Sys2Proof/Machine/Control.lean ====
section
/-! DEFINITION. The meanings of BR, JMP, JSR and JSRR (42_control.md). `pc` already points past the instruction (R83). -/

namespace Sys2Proof.Machine

/-- BR (R101, R102): a branch not taken leaves `pc` at the next word. -/
def execBr (nzp : BitVec 3) (off9 : BitVec 9) (s : State) : Result := perform (do
  let c ← look (·.cond)
  if branchTaken nzp c then
    let target ← look (pcRelative · off9)
    setPc target) s

/-- JMP, and RET when the register is R7 (R103, R104). -/
def execJmp (baseR : Reg) (s : State) : Result := perform (do
  let target ← look (·.reg baseR)
  setPc target) s

/-- JSR (R105). -/
def execJsr (off11 : BitVec 11) (s : State) : Result := perform (do
  saveReturn
  let target ← look (pcRelative · off11)
  setPc target) s

/-- JSRR (R106): the register is read after R7 is written (R17). -/
def execJsrr (baseR : Reg) (s : State) : Result := perform (do
  saveReturn
  let target ← look (·.reg baseR)
  setPc target) s

end Sys2Proof.Machine
end

