-- ==== Sys2Proof/Machine/LoadStore.lean ====
section
/-! DEFINITION. The meanings of the loads, the stores and LEA (43_load_store.md). -/

namespace Sys2Proof.Machine

/-- LD (R108). -/
def execLd (dr : Reg) (off9 : BitVec 9) (s : State) : Result := perform (do
  let ea ← look (pcRelative · off9)
  let v ← memRead ea
  writeResult dr v) s

/-- LDI (R109): both reads are MemReads, so either may poll the keyboard. -/
def execLdi (dr : Reg) (off9 : BitVec 9) (s : State) : Result := perform (do
  let ea ← look (pcRelative · off9)
  let p ← memRead ea
  let v ← memRead p
  writeResult dr v) s

/-- LDR (R110): the address comes from the base register before DR is written. -/
def execLdr (dr baseR : Reg) (off6 : BitVec 6) (s : State) : Result := perform (do
  let ea ← look (baseOffset · baseR off6)
  let v ← memRead ea
  writeResult dr v) s

/-- LEA (R111): no memory access; it sets the flag (C6). -/
def execLea (dr : Reg) (off9 : BitVec 9) (s : State) : Result := perform (do
  let ea ← look (pcRelative · off9)
  writeResult dr ea) s

/-- ST (R112). -/
def execSt (sr : Reg) (off9 : BitVec 9) (s : State) : Result := perform (do
  let ea ← look (pcRelative · off9)
  let v ← look (·.reg sr)
  memWrite ea v) s

/-- STI (R113): the pointer read is a MemRead. -/
def execSti (sr : Reg) (off9 : BitVec 9) (s : State) : Result := perform (do
  let ea ← look (pcRelative · off9)
  let p ← memRead ea
  let v ← look (·.reg sr)
  memWrite p v) s

/-- STR (R114). -/
def execStr (sr baseR : Reg) (off6 : BitVec 6) (s : State) : Result := perform (do
  let ea ← look (baseOffset · baseR off6)
  let v ← look (·.reg sr)
  memWrite ea v) s

/-- The address ST, STI or STR stores to, from the state the instruction starts in (R115): what their meanings give
`memWrite`. `none` for every form that stores nothing. -/
def storeAddress (i : Instr) (s : State) : Option Word :=
  match i with
  | .st _ off9 => some (pcRelative s off9)
  | .sti _ off9 => some (s.readValue (pcRelative s off9))
  | .str _ baseR off6 => some (baseOffset s baseR off6)
  | .addReg _ _ _ | .addImm _ _ _ | .andReg _ _ _ | .andImm _ _ _ | .not _ _
  | .br _ _ | .jmp _ | .jsr _ | .jsrr _
  | .ld _ _ | .ldi _ _ | .ldr _ _ _ | .lea _ _
  | .trapGetc | .trapOut | .trapPuts | .trapIn | .trapPutsp | .trapHalt | .trapOther _ _
  | .rti _ | .res _ => none

/-- The addresses an instruction reads with MemRead, from the state it starts in (20_memory.md R49); the instruction fetch
is not among them. -/
def readAddresses (i : Instr) (s : State) : List Word :=
  match i with
  | .ld _ off9 => [pcRelative s off9]
  | .ldi _ off9 => [pcRelative s off9, s.readValue (pcRelative s off9)]
  | .ldr _ baseR off6 => [baseOffset s baseR off6]
  | .sti _ off9 => [pcRelative s off9]
  | .addReg _ _ _ | .addImm _ _ _ | .andReg _ _ _ | .andImm _ _ _ | .not _ _
  | .br _ _ | .jmp _ | .jsr _ | .jsrr _
  | .lea _ _ | .st _ _ | .str _ _ _
  | .trapGetc | .trapOut | .trapPuts | .trapIn | .trapPutsp | .trapHalt | .trapOther _ _
  | .rti _ | .res _ => []

end Sys2Proof.Machine
end

