-- ==== Sys2Proof/Machine/Reserved.lean ====
section
/-! DEFINITION. The reserved opcodes RTI and RES: both take the reserved-opcode fault (45_reserved.md). Nothing but `run`
changes beside the fetch (R132). -/

namespace Sys2Proof.Machine

/-- The fetched Word of an RTI with these ignored bits (30_encoding.md R72). -/
def rtiWord (ign : BitVec 12) : Word := asWord (0x8#4 ++ ign)

/-- The fetched Word of a RES with these ignored bits (30_encoding.md R72). -/
def resWord (ign : BitVec 12) : Word := asWord (0xD#4 ++ ign)

/-- RTI (R130). -/
def execRti (ign : BitVec 12) (s : State) : Result := perform (raiseFault .reservedOpcode (rtiWord ign)) s

/-- RES (R131). -/
def execRes (ign : BitVec 12) (s : State) : Result := perform (raiseFault .reservedOpcode (resWord ign)) s

end Sys2Proof.Machine
end

