-- ==== Sys2Proof/Machine/Trap.lean ====
section
/-! DEFINITION. TRAP: the common entry, the six services, the unknown vector (44_trap.md), and going on with a service
that is in flight. A service never changes `pc`, so there is nothing to return from (60_exceptions.md R142). -/

namespace Sys2Proof.Machine

/-- What GETC and IN do with the byte read: `x[0] <- CharToWord(c); SetCC(x[0])` (R118, R119, R123). -/
def takeChar (c : Byte) : Exec Unit := do
  let e ← look (·.params.charExt)
  writeResult serviceReg (charToWord e c)

/-- GETC from its InRead on (R118). -/
def serviceGetc : Exec Unit := do
  let c ← inRead .getc
  takeChar c

/-- OUT (R120). -/
def serviceOut : Exec Unit := do
  let v ← look (·.reg serviceReg)
  outByte (lowByte v)

/-- IN from its InRead on (R123): the echo is the byte as read. -/
def serviceInRead : Exec Unit := do
  let c ← inRead .inn
  outByte c
  takeChar c

/-- IN (R123): the prompt is emitted before the wait. -/
def serviceIn : Exec Unit := do
  let prompt ← look (·.params.inPrompt)
  outBytes prompt
  serviceInRead

/-- How many words one step of PUTS or PUTSP reads at most: all of memory, so if it finds no zero word there is none
(R122; log 14). -/
def stringReads : Nat := 65536

/-- The loop of PUTS and PUTSP from address `a`: emit `bytes w` for each word up to a zero word (R121, R125). After `n`
words without one it stays in flight as `again a` (R122; log 14). -/
def stringLoop (bytes : Word → List Byte) (again : Word → Service) : Nat → Word → Exec Unit
  | 0, a => fun s => .error .held (s.setInflight (some (again a)))
  | n + 1, a => do
    let w ← rawRead a
    if w = 0x0000 then pure ()
    else do
      outBytes (bytes w)
      stringLoop bytes again n (a + 1)

/-- PUTS from an address on: bits 7:0 of each word (R121). -/
def putsFrom (a : Word) : Exec Unit := stringLoop (fun w => [lowByte w]) .puts stringReads a

/-- PUTSP from an address on: the packed bytes of each word (R125). -/
def putspFrom (a : Word) : Exec Unit := stringLoop packedBytes .putsp stringReads a

/-- PUTS (R121). -/
def servicePuts : Exec Unit := do
  let a ← look (·.reg serviceReg)
  putsFrom a

/-- PUTSP (R125). -/
def servicePutsp : Exec Unit := do
  let a ← look (·.reg serviceReg)
  putspFrom a

/-- HALT (R126). -/
def serviceHalt : Exec Unit := do
  let notice ← look (·.params.haltNotice)
  outBytes notice
  halt

/-- The fetched Word of a TRAP with these bits (R71), which the unknown-vector fault records (60_exceptions.md R135). -/
def trapWord (ign : BitVec 4) (vec : BitVec 8) : Word := asWord (0xF#4 ++ ign ++ vec)

/-- An unknown vector (R129): the fault or nothing, by the open parameter UNKNOWN_TRAP_POLICY. -/
def unknownTrap (instr : Word) : Exec Unit := do
  let policy ← look (·.params.unknownTrap)
  match policy with
  | .fault => raiseFault .unknownTrap instr
  | .noop => pure ()

/-- TRAP GETC (R117, R118). -/
def execTrapGetc (s : State) : Result := perform (do
  saveReturn
  serviceGetc) s

/-- TRAP OUT (R117, R120). -/
def execTrapOut (s : State) : Result := perform (do
  saveReturn
  serviceOut) s

/-- TRAP PUTS (R117, R121). R0 is read after R7 is written (R17). -/
def execTrapPuts (s : State) : Result := perform (do
  saveReturn
  servicePuts) s

/-- TRAP IN (R117, R123). -/
def execTrapIn (s : State) : Result := perform (do
  saveReturn
  serviceIn) s

/-- TRAP PUTSP (R117, R125). -/
def execTrapPutsp (s : State) : Result := perform (do
  saveReturn
  servicePutsp) s

/-- TRAP HALT (R117, R126). -/
def execTrapHalt (s : State) : Result := perform (do
  saveReturn
  serviceHalt) s

/-- TRAP with an unknown vector (R117, R129). -/
def execTrapOther (ign : BitVec 4) (vec : BitVec 8) (s : State) : Result := perform (do
  saveReturn
  unknownTrap (trapWord ign vec)) s

/-- The rest of the service in flight (R91, R122; logs 13 and 14). -/
def serviceRest : Service → Exec Unit
  | .getc => serviceGetc
  | .inn => serviceInRead
  | .puts a => putsFrom a
  | .putsp a => putspFrom a

/-- Go on with the service in flight. -/
def resume (p : Service) (s : State) : Result := perform (serviceRest p) (s.setInflight none)

end Sys2Proof.Machine
end

