-- ==== Sys2Proof/Machine/Step.lean ====
section
/-! DEFINITION. One step of the block (40_execution_cycle.md R81 to R91). -/

namespace Sys2Proof.Machine

/-- Decode and execute the fetched Word (R84, R85; R133 for a Word that decodes to nothing, which none does). -/
def runWord (w : Word) (s : State) : Result :=
  match Sys2Proof.decode w with
  | some i => exec i s
  | none => unknownOpcode w s

/-- One step (R81): in a terminal state there is none (R88); a service in flight goes on (R91, R122); otherwise fetch, advance
`pc`, decode, execute. -/
def step (s : State) : Host.Outcome State Fault Refusal :=
  match s.run with
  | .running =>
    match s.inflight with
    | some p => resume p s
    | none =>
      match fetch s with
      | .ok w t => runWord w t
      | .error _ t => .next t
  | .halted | .faulted _ _ | .cancelled => .fault .notRunning

/-- `s` with the instruction of a table row placed where the next step fetches, and with what else that fetch needs: the
block running, no service in flight, no cancellation raised (log 20). A program is otherwise loaded from outside, by the
image load (R38; Boot.lean). With `pc` at KBSR_ADDR the fetch polls and reads the latched value instead (R82). -/
def State.withFetchWord (s : State) (nbits w : Nat) : State :=
  { s with
    mem := s.mem.write s.pc.toNat (BitVec.ofNat 16 (w % 2 ^ nbits))
    run := .running
    inflight := none
    cancel := none }

end Sys2Proof.Machine
end

