-- ==== Sys2Proof/Safety.lean ====
section
/-! DEFINITION. What counts as a good state and a safe run, in the terms the statements use. -/

namespace Sys2Proof.Machine

/-- Terminal states: "HALTED, FAULTED and CANCELLED are terminal" (40_execution_cycle.md R88). -/
def State.terminal (s : State) : Prop := s.run ≠ .running

/-- The invariant of the block. Memory is in its canonical form, and a service is in flight only while the block runs, with
R7 still holding the return address that its TRAP saved (44_trap.md R117, R128: no service but the entry writes R7, and
none changes `pc`). -/
def State.Inv (s : State) : Prop :=
  s.mem.wf ∧ (s.inflight ≠ none → s.run = .running ∧ s.reg linkReg = s.pc)

/-- A run is safe if it never enters FAULTED (10_state.md R27, 40_execution_cycle.md R92). -/
def State.SafeRun (s : State) : Prop :=
  ∀ k t, Sys2Proof.core.run k s = .next t → ∀ kind info, t.run ≠ .faulted kind info

end Sys2Proof.Machine
end

