-- ==== Sys2Proof/Certificates/Slice0/Obligations.lean ====
section
/-! DEFINITION. The statements for the provers. `s.quiet k` says that no cancellation takes effect within the next k
primitive actions (40_execution_cycle.md R90), and `s.spend k` counts k of them off: a result statement holds for every
state in which the host lets the instruction complete. An instruction's state `s` is the one after the fetch, so `s.pc`
already points past it (R83). -/

open Sys2Proof Sys2Proof.Machine

/-! ### Reset, image, encoding -/

/-- R31: the entry point is 0x3000 whatever the image and its origin. -/
def Obligations.EntryPointIsFixed : Prop :=
  State.reset.pc = 0x3000 ∧ ∀ (file : Option (List Byte)) (s : State), boot file = .ready s → s.pc = 0x3000

/-- 10_state.md section 5, with the spec's own choices D14, D15 and D16 (logs 2, 3, 4) and the model's for the host's
fields (log 22). -/
def Obligations.ResetState : Prop :=
  (∀ r : Reg, State.reset.reg r = 0x0000) ∧ State.reset.pc = 0x3000 ∧ State.reset.cond = .zero ∧
  (∀ a : Word, State.reset.word a = 0x0000) ∧ State.reset.run = .running ∧ State.reset.out = [] ∧
  State.reset.inflight = none

/-- R152: byte 2k of the file is bits 15:8 and byte 2k+1 bits 7:0 of file word k; a trailing odd byte is ignored (D17).
-/
def Obligations.FileWordsAreBigEndian : Prop :=
  ∀ bytes : List Byte, (fileWords bytes).length = bytes.length / 2 ∧
    ∀ (k : Nat) (w : Word), (fileWords bytes)[k]? = some w →
      bytes[2 * k]? = some (highByte w) ∧ bytes[2 * k + 1]? = some (lowByte w)

/-- R153: file words 1..n stand in memory from the origin on; as far as they fit below 65536 (R154, the spec's own D17).
-/
def Obligations.ImageIsCopiedVerbatim : Prop :=
  ∀ (bytes : List Byte) (origin : Word) (ws : List Word), fileWords bytes = origin :: ws →
    ∃ s, boot (some bytes) = .ready s ∧
      ∀ (i : Nat) (w : Word), ws[i]? = some w → origin.toNat + i < 65536 → s.mem.read (origin.toNat + i) = w

/-- 70_reset_and_hazards.md R154 and R156 (the spec's own D16 and D17; log 2): every address the image does not reach
holds 0x0000, so the copy neither wraps nor spills. -/
def Obligations.UncoveredWordsAreZero : Prop :=
  ∀ (bytes : List Byte) (origin : Word) (ws : List Word) (s : State), fileWords bytes = origin :: ws →
    boot (some bytes) = .ready s →
    ∀ a : Nat, (a < origin.toNat ∨ origin.toNat + ws.length ≤ a ∨ 65536 ≤ a) → s.mem.read a = 0x0000

/-- 70_reset_and_hazards.md R151 and 60_exceptions.md R136: no file, or one without an origin word (D17), is a startup
error with a non-zero exit status; any other file starts the block. -/
def Obligations.StartupErrors : Prop :=
  boot none = .error ∧
  (∀ bytes : List Byte, bytes.length < 2 → boot (some bytes) = .error) ∧
  (∀ bytes : List Byte, 2 ≤ bytes.length → ∃ s, boot (some bytes) = .ready s) ∧
  ∃ n, n ≠ 0 ∧ Startup.error.exitStatus = some n

/-- Words written out from 30_encoding.md R64 to R72 (and worked in 95_test_vectors.md) decode to what they stand for.
The encoding is the published LC-3's, which the spec adopts by its own choice (D1, D3, D4; log 5). -/
def Obligations.WrittenOutWordsDecode : Prop :=
  decode 0x1642 = some (.addReg 3 1 2) ∧ decode 0x147C = some (.addImm 2 1 0b11100) ∧
  decode 0x5642 = some (.andReg 3 1 2) ∧ decode 0x927F = some (.not 1 1) ∧
  decode 0x0405 = some (.br 0b010 5) ∧ decode 0xC1C0 = some (.jmp 7) ∧ decode 0x4C00 = some (.jsr 0x400) ∧
  decode 0x40C0 = some (.jsrr 3) ∧ decode 0x673F = some (.ldr 3 4 0b111111) ∧ decode 0xB400 = some (.sti 2 0) ∧
  decode 0xF023 = some .trapIn ∧ decode 0xF026 = some (.trapOther 0 0x26) ∧ decode 0xD123 = some (.res 0x123)

/-- R78: each of the 65536 Words decodes to exactly one row of opcode_table.json: `decode` answers an instruction, a
well-formed one, and the Word matches that instruction's row. Which values are reserved is the spec's own D3 (log 5). -/
def Obligations.DecoderIsTotal : Prop :=
  ∀ w : Word, ∃ i, decode w = some i ∧ i.wellFormed = true ∧ w &&& i.rowMask = i.rowMatch

/-- Decode and encode agree, with every operand at every value the encoding admits (30_encoding.md R64 to R72; the
encoding is the spec's own choice D1, D3, D4, logs 5 and 8). -/
def Obligations.DecodeOfEncode : Prop :=
  ∀ i : Instr, i.wellFormed = true → decode (encode i) = some i

/-- 30_encoding.md R77 (the spec's own D7; log 8): a Word that differs only in bits the instruction does not use decodes to
the same instruction, and the encoding of the decoded instruction keeps every bit that it uses. The rows RTI, RES and TRAP
with an unknown vector USE all their bits here, though R77 ignores bits 11:0 and 11:8: two such Words do not decode alike,
because the instruction holds those bits for the fault, which records the whole Word (the model's choice, log 26). -/
def Obligations.IgnoredBitsAreIgnored : Prop :=
  ∀ (w : Word) (i : Instr), decode w = some i →
    encode i &&& i.usedMask = w &&& i.usedMask ∧
    ∀ w' : Word, w' &&& i.usedMask = w &&& i.usedMask → decode w' = some i

/-! ### Arithmetic, flags -/

/-- R15: read as signed, the extended field is f when bit k-1 is 0 and f - 2^k when it is 1, for the spec's widths;
`zext_16` keeps the unsigned value. -/
def Obligations.SignExtensionLaw : Prop :=
  ∀ k ∈ [5, 6, 8, 9, 11], ∀ f : BitVec k,
    (sext f).toInt = (if f.getLsbD (k - 1) then (f.toNat : Int) - 2 ^ k else (f.toNat : Int)) ∧
    (zext f).toNat = f.toNat

/-- R25: SetCC(v) sets the flag and nothing else: to ZERO, NEGATIVE or POSITIVE as the Word, read as signed, is zero,
negative or positive. -/
def Obligations.FlagFollowsTheValue : Prop :=
  ∀ (v : Word) (s : State), s.quiet 1 →
    ∃ c, setCC v s = .ok () ((s.spend 1).setCond c) ∧
      (c = .zero ↔ v.toInt = 0) ∧ (c = .negative ↔ v.toInt < 0) ∧ (c = .positive ↔ 0 < v.toInt)

/-- R93 and R94: ADD writes the sum modulo 2^16 to DR and sets the flag from it, in both forms. -/
def Obligations.AddResult : Prop :=
  ∀ (dr sr1 sr2 : Reg) (imm5 : BitVec 5) (s : State), s.quiet 2 →
    exec (.addReg dr sr1 sr2) s = .next (((s.spend 2).setReg dr (s.reg sr1 + s.reg sr2)).setCond
      (condOf (s.reg sr1 + s.reg sr2))) ∧
    exec (.addImm dr sr1 imm5) s = .next (((s.spend 2).setReg dr (s.reg sr1 + sext imm5)).setCond
      (condOf (s.reg sr1 + sext imm5)))

/-- R95 and R96: AND writes the conjunction to DR and sets the flag from it, in both forms. -/
def Obligations.AndResult : Prop :=
  ∀ (dr sr1 sr2 : Reg) (imm5 : BitVec 5) (s : State), s.quiet 2 →
    exec (.andReg dr sr1 sr2) s = .next (((s.spend 2).setReg dr (s.reg sr1 &&& s.reg sr2)).setCond
      (condOf (s.reg sr1 &&& s.reg sr2))) ∧
    exec (.andImm dr sr1 imm5) s = .next (((s.spend 2).setReg dr (s.reg sr1 &&& sext imm5)).setCond
      (condOf (s.reg sr1 &&& sext imm5)))

/-- R97: NOT writes the complement to DR and sets the flag from it. -/
def Obligations.NotResult : Prop :=
  ∀ (dr sr : Reg) (s : State), s.quiet 2 →
    exec (.not dr sr) s = .next (((s.spend 2).setReg dr (~~~s.reg sr)).setCond (condOf (~~~s.reg sr)))

/-- R100: the immediate and the register form agree when SR2 holds the extended immediate. -/
def Obligations.ImmediateAndRegisterFormsAgree : Prop :=
  ∀ (dr sr1 sr2 : Reg) (imm5 : BitVec 5) (s : State), s.reg sr2 = sext imm5 →
    exec (.addReg dr sr1 sr2) s = exec (.addImm dr sr1 imm5) s ∧
    exec (.andReg dr sr1 sr2) s = exec (.andImm dr sr1 imm5) s

/-! ### Control transfer -/

/-- R101 and R102: BR is taken if and only if the mask meets the flag; untaken, it changes nothing (`pc` is already at
the next word). -/
def Obligations.BranchLaw : Prop :=
  ∀ (nzp : BitVec 3) (off9 : BitVec 9) (s : State),
    (nzp &&& s.cond.bits ≠ 0b000 → s.quiet 1 → exec (.br nzp off9) s = .next ((s.spend 1).setPc (s.pc + sext off9))) ∧
    (nzp &&& s.cond.bits = 0b000 → exec (.br nzp off9) s = .next s)

/-- 10_state.md R24 and 42_control.md R101 (the bit values are D2; log 7): n, z, p meet NEGATIVE, ZERO, POSITIVE; the
mask 111 is always taken and 000 never. -/
def Obligations.BranchMaskBits : Prop :=
  ∀ (nzp : BitVec 3) (c : Cond),
    branchTaken nzp c = (match c with
      | .negative => nzp.getLsbD 2
      | .zero => nzp.getLsbD 1
      | .positive => nzp.getLsbD 0) ∧
    branchTaken 0b111 c = true ∧ branchTaken 0b000 c = false

/-- R103: JMP sets pc to the register's value. -/
def Obligations.JumpThroughRegister : Prop :=
  ∀ (baseR : Reg) (s : State), s.quiet 1 → exec (.jmp baseR) s = .next ((s.spend 1).setPc (s.reg baseR))

/-- R105: JSR saves pc in R7 and adds the offset to it. -/
def Obligations.CallRelative : Prop :=
  ∀ (off11 : BitVec 11) (s : State), s.quiet 2 →
    exec (.jsr off11) s = .next (((s.spend 2).setReg 7 s.pc).setPc (s.pc + sext off11))

/-- R106: JSRR saves pc in R7 and then reads the register, so JSRR R7 goes to the next instruction. -/
def Obligations.CallThroughRegister : Prop :=
  ∀ (baseR : Reg) (s : State), s.quiet 2 →
    exec (.jsrr baseR) s = .next (((s.spend 2).setReg 7 s.pc).setPc (if baseR = 7 then s.pc else s.reg baseR))

/-- R104: JMP R7 after a subroutine that leaves R7 as JSR wrote it goes to the instruction after the JSR. -/
def Obligations.CallReturnRoundTrip : Prop :=
  ∀ (off11 : BitVec 11) (s t u v : State), s.quiet 2 → exec (.jsr off11) s = .next t →
    u.reg 7 = t.reg 7 → u.quiet 1 → exec (.jmp 7) u = .next v → v.pc = s.pc

/-! ### Loads, stores, LEA -/

/-- R108 and R110: LD and LDR write the Word of one MemRead to DR and set the flag from it. -/
def Obligations.LoadResult : Prop :=
  ∀ (dr baseR : Reg) (off9 : BitVec 9) (off6 : BitVec 6) (s : State), s.quiet 3 →
    (let ea := s.pc + sext off9
     exec (.ld dr off9) s = .next ((((s.spend 3).afterRead ea).setReg dr (s.readValue ea)).setCond
       (condOf (s.readValue ea)))) ∧
    (let ea := s.reg baseR + sext off6
     exec (.ldr dr baseR off6) s = .next ((((s.spend 3).afterRead ea).setReg dr (s.readValue ea)).setCond
       (condOf (s.readValue ea))))

/-- R109: LDI reads a pointer and then the Word it points to, each with a MemRead. -/
def Obligations.LoadIndirectResult : Prop :=
  ∀ (dr : Reg) (off9 : BitVec 9) (s : State), s.quiet 4 →
    let ea := s.pc + sext off9
    let p := s.readValue ea
    let v := (s.afterRead ea).readValue p
    exec (.ldi dr off9) s = .next (((((s.spend 4).afterRead ea).afterRead p).setReg dr v).setCond (condOf v))

/-- R111: LEA writes the address to DR, reads no memory and sets the flag from the address. -/
def Obligations.LoadAddressResult : Prop :=
  ∀ (dr : Reg) (off9 : BitVec 9) (s : State), s.quiet 2 →
    exec (.lea dr off9) s = .next (((s.spend 2).setReg dr (s.pc + sext off9)).setCond (condOf (s.pc + sext off9)))

/-- R112 and R114: ST and STR store the register at the effective address and change nothing else. -/
def Obligations.StoreResult : Prop :=
  ∀ (sr baseR : Reg) (off9 : BitVec 9) (off6 : BitVec 6) (s : State), s.quiet 1 →
    exec (.st sr off9) s = .next ((s.spend 1).store (s.pc + sext off9) (s.reg sr)) ∧
    exec (.str sr baseR off6) s = .next ((s.spend 1).store (s.reg baseR + sext off6) (s.reg sr))

/-- R113: STI reads the pointer with a MemRead and stores the register there. -/
def Obligations.StoreIndirectResult : Prop :=
  ∀ (sr : Reg) (off9 : BitVec 9) (s : State), s.quiet 2 →
    let ea := s.pc + sext off9
    exec (.sti sr off9) s = .next (((s.spend 2).afterRead ea).store (s.readValue ea) (s.reg sr))

/-- R43: a MemRead of any address but KBSR_ADDR is a pure lookup; R46: one of KBSR_ADDR consumes a pending character and
latches READY and the code, sign-extended, or clears the status and leaves KBDR. The values 0x8000 and 0x0000, and that
the poll consumes the character, are the spec's own D6 and D26 (logs 6 and 23). -/
def Obligations.MemoryReadPollsTheKeyboard : Prop :=
  (∀ (s : State) (a : Word), a ≠ kbsrAddr → s.readValue a = s.word a ∧ s.afterRead a = s) ∧
  (∀ (s : State) (c : Byte) (ks : List Key), s.input = ⟨0, c⟩ :: ks →
    s.readValue kbsrAddr = 0x8000 ∧ (s.afterRead kbsrAddr).word kbdrAddr = sext c ∧
    (s.afterRead kbsrAddr).input = ks) ∧
  (∀ s : State, s.inAvail = false →
    s.readValue kbsrAddr = 0x0000 ∧ (s.afterRead kbsrAddr).word kbdrAddr = s.word kbdrAddr ∧
    (s.afterRead kbsrAddr).input.map Key.code = s.input.map Key.code) ∧
  (∀ (s : State) (a b : Word), b ≠ kbsrAddr → b ≠ kbdrAddr → (s.afterRead a).word b = s.word b)

/-- R48: a store sets the one Word at its address, at every address, and has no side effect. -/
def Obligations.StoreSetsOneWord : Prop :=
  ∀ (s : State) (a v : Word), (s.store a v).word a = v ∧ (∀ b : Word, b ≠ a → (s.store a v).word b = s.word b) ∧
    (s.store a v).input = s.input ∧ (s.store a v).out = s.out

/-- R58 (the spec's own inference): a store is seen by every later fetch of its address, as long as nothing else wrote
there (a fetch from KBSR_ADDR polls instead, R43): in any state whose word there is still the stored one, the step runs
the stored instruction. -/
def Obligations.StoreIsSeenByALaterFetch : Prop :=
  ∀ (sr : Reg) (off9 : BitVec 9) (s t u : State) (i : Instr), s.quiet 1 → exec (.st sr off9) s = .next t →
    let a := s.pc + sext off9
    a ≠ kbsrAddr → u.word a = t.word a → u.pc = a → u.run = .running → u.inflight = none → u.quiet 2 →
    decode (s.reg sr) = some i → step u = exec i ((u.spend 2).setPc (a + 1))

/-! ### TRAP and the reserved opcodes -/

/-- R117: every TRAP first saves the return address in R7, and none changes pc. -/
def Obligations.TrapSavesReturnAddress : Prop :=
  ∀ (i : Instr) (s t : State), i.isTrap = true → s.quiet 1 → exec i s = .next t → t.reg 7 = s.pc ∧ t.pc = s.pc

/-- 44_trap.md R118: GETC consumes the oldest character, writes it to R0 and sets the flag from R0; nothing is echoed. That
memory, KBSR and KBDR with it, stays is the spec's own D26 (log 23); that the oldest character is taken whatever its count of
missed polls is the model's choice (log 11). -/
def Obligations.GetcResult : Prop :=
  ∀ (s : State) (k : Key) (ks : List Key), s.input = k :: ks → s.quiet 4 →
    let v := charToWord s.params.charExt k.code
    exec .trapGetc s = .next (((((s.spend 4).setReg 7 s.pc).setInput ks).setReg 0 v).setCond (condOf v))

/-- R119: a code below 0x80 is zero-extended under either value of CHAR_EXT; from 0x80 on it is zero- or sign-extended
as CHAR_EXT says, a parameter the spec leaves open (D12; log 9). -/
def Obligations.CharToWordLaw : Prop :=
  ∀ (e : CharExt) (c : Byte),
    (c.toNat < 0x80 → (charToWord e c).toNat = c.toNat) ∧
    (0x80 ≤ c.toNat → (charToWord .zext c).toNat = c.toNat ∧ (charToWord .sext c).toNat = 0xFF00 + c.toNat)

/-- 44_trap.md R123: IN emits the prompt, consumes the oldest character, echoes it, writes it to R0 and sets the flag from R0.
That memory, KBSR and KBDR with it, stays is the spec's own D26 (log 23); that the oldest character is taken whatever its
count of missed polls is the model's choice (log 11). -/
def Obligations.InResult : Prop :=
  ∀ (s : State) (k : Key) (ks : List Key), s.input = k :: ks → s.quiet (s.params.inPrompt.length + 5) →
    let v := charToWord s.params.charExt k.code
    exec .trapIn s = .next ((((((s.spend (s.params.inPrompt.length + 5)).setReg 7 s.pc).emit
      (s.params.inPrompt ++ [k.code])).setInput ks).setReg 0 v).setCond (condOf v))

/-- R91: GETC and IN with no character to come are held, with what they did before the wait done (R117, R123); a held
step changes nothing while the host neither supplies a character nor cancels (a hang, not a final state). How a wait is
held is the model's choice (log 13). -/
def Obligations.InputWaitIsHeld : Prop :=
  ∀ s : State, s.input = [] → s.cancel = none →
    exec .trapGetc s = .next ((s.setReg 7 s.pc).setInflight (some .getc)) ∧
    exec .trapIn s = .next (((s.setReg 7 s.pc).emit s.params.inPrompt).setInflight (some .inn)) ∧
    (s.run = .running → (s.inflight = some .getc ∨ s.inflight = some .inn) → step s = .next s)

/-- R91: the hold lifts when the host supplies a character: the next step finishes the service (R118, R123). How a wait
is held is the model's choice (log 13). -/
def Obligations.InputWaitLifts : Prop :=
  ∀ (s : State) (c : Byte), s.input = [] → s.cancel = none → s.run = .running →
    let v := charToWord s.params.charExt c
    (s.inflight = some .getc → step (s.hostKey c) = .next (((s.setInflight none).setReg 0 v).setCond (condOf v))) ∧
    (s.inflight = some .inn →
      step (s.hostKey c) = .next ((((s.setInflight none).emit [c]).setReg 0 v).setCond (condOf v)))

/-- R120: OUT emits bits 7:0 of R0. -/
def Obligations.OutResult : Prop :=
  ∀ s : State, s.quiet 2 →
    exec .trapOut s = .next (((s.spend 2).setReg 7 s.pc).emit [(s.reg 0).extractLsb' 0 8])

/-- R121: PUTS emits bits 7:0 of each Word from R0 up to a zero Word, with no poll, and changes nothing else but R7.
Which bits, no poll, and the wrap of the reads are the spec's own D10 and D11 (log 17). -/
def Obligations.PutsResult : Prop :=
  ∀ (s : State) (ws : List Word),
    (∀ (i : Nat) (w : Word), ws[i]? = some w → s.word (s.reg 0 + BitVec.ofNat 16 i) = w ∧ w ≠ 0x0000) →
    s.word (s.reg 0 + BitVec.ofNat 16 ws.length) = 0x0000 → s.quiet (2 * ws.length + 2) →
    exec .trapPuts s = .next (((s.spend (2 * ws.length + 2)).setReg 7 s.pc).emit (ws.map lowByte))

/-- R125: PUTSP emits the low byte of each Word from R0 up to a zero Word, and after it the high byte if nonzero. No
poll and the wrap of the reads are the spec's own D10 (log 17). -/
def Obligations.PutspResult : Prop :=
  ∀ (s : State) (ws : List Word),
    (∀ (i : Nat) (w : Word), ws[i]? = some w → s.word (s.reg 0 + BitVec.ofNat 16 i) = w ∧ w ≠ 0x0000) →
    s.word (s.reg 0 + BitVec.ofNat 16 ws.length) = 0x0000 →
    let bytes := ws.flatMap fun w => lowByte w :: (if highByte w = 0x00 then [] else [highByte w])
    s.quiet (bytes.length + ws.length + 2) →
    exec .trapPutsp s = .next (((s.spend (bytes.length + ws.length + 2)).setReg 7 s.pc).emit bytes)

/-- R122 (the spec's own inference): PUTS and PUTSP end if some Word of memory is zero, from the TRAP on and from any
address at which a service in flight goes on; otherwise they never end. Then the TRAP leaves its own service in flight at
the address it began with, having emitted the bytes of all 65536 Words; each step of a service in flight emits the bytes
of all 65536 Words again and changes nothing else; so after any number of steps the block still runs, in the same service,
and has emitted that many more bytes. The wrap is the spec's own D10 (log 17), the length of a step the model's choice
(log 14). -/
def Obligations.StringServicesEndOrHang : Prop :=
  ∀ (s : State) (a : Word), s.cancel = none →
    let word (i : Nat) := s.word (a + BitVec.ofNat 16 i)
    let plain := (List.range 65536).map fun i => lowByte (word i)
    let packed := (List.range 65536).flatMap fun i =>
      lowByte (word i) :: (if highByte (word i) = 0x00 then [] else [highByte (word i)])
    ((∃ b, s.word b = 0x0000) →
      (s.inflight = none → ∃ t, exec .trapPuts s = .next t ∧ t.inflight = none ∧ t.run = s.run) ∧
      (s.inflight = none → ∃ t, exec .trapPutsp s = .next t ∧ t.inflight = none ∧ t.run = s.run) ∧
      (s.run = .running → (s.inflight = some (.puts a) ∨ s.inflight = some (.putsp a)) →
        ∃ t, step s = .next t ∧ t.inflight = none ∧ t.run = .running)) ∧
    ((∀ b, s.word b ≠ 0x0000) →
      (s.reg 0 = a → exec .trapPuts s = .next (((s.setReg 7 s.pc).emit plain).setInflight (some (.puts a)))) ∧
      (s.reg 0 = a → exec .trapPutsp s = .next (((s.setReg 7 s.pc).emit packed).setInflight (some (.putsp a)))) ∧
      (s.run = .running → s.inflight = some (.puts a) → step s = .next (s.emit plain)) ∧
      (s.run = .running → s.inflight = some (.putsp a) → step s = .next (s.emit packed)) ∧
      (s.run = .running → (s.inflight = some (.puts a) ∨ s.inflight = some (.putsp a)) →
        ∀ k, ∃ t, Sys2Proof.core.run k s = .next t ∧ t.run = .running ∧ t.inflight = s.inflight ∧
          s.out.length + 65536 * k ≤ t.out.length))

/-- R126: HALT saves pc in R7, emits the notice and enters HALTED. -/
def Obligations.HaltResult : Prop :=
  ∀ s : State, s.quiet (s.params.haltNotice.length + 2) →
    exec .trapHalt s = .next ((((s.spend (s.params.haltNotice.length + 2)).setReg 7 s.pc).emit
      s.params.haltNotice).setRun .halted)

/-- R129: an unknown vector, after the write of R7, enters FAULTED(UNKNOWN_TRAP, instr) under policy `fault`, and goes
on under policy `noop`: the policy is a parameter the spec leaves open (D8; log 9). -/
def Obligations.UnknownTrapResult : Prop :=
  ∀ (ign : BitVec 4) (vec : BitVec 8) (s : State), s.quiet 2 →
    (s.params.unknownTrap = .fault → exec (.trapOther ign vec) s = .next
      (((s.spend 2).setReg 7 s.pc).setRun (.faulted .unknownTrap (encode (.trapOther ign vec))))) ∧
    (s.params.unknownTrap = .noop → exec (.trapOther ign vec) s = .next ((s.spend 1).setReg 7 s.pc))

/-- R130 and R131: RTI and RES enter FAULTED(RESERVED_OPCODE, instr), and change nothing else. (Which opcode values
these are is the spec's own D3, log 5, and no part of this statement.) -/
def Obligations.ReservedOpcodeFault : Prop :=
  ∀ (ign : BitVec 12) (s : State), s.quiet 1 →
    exec (.rti ign) s = .next ((s.spend 1).setRun (.faulted .reservedOpcode (encode (.rti ign)))) ∧
    exec (.res ign) s = .next ((s.spend 1).setRun (.faulted .reservedOpcode (encode (.res ign))))

/-! ### Frames: what an instruction leaves unchanged, whether or not cancellation cuts it short -/

/-- R20: an instruction writes no general register but those of its row in the table. -/
def Obligations.RegisterFrame : Prop :=
  ∀ (i : Instr) (s t : State), exec i s = .next t → ∀ r : Reg, r ∉ writtenRegs i → t.reg r = s.reg r

/-- R26: no instruction but ADD, AND, NOT, LD, LDI, LDR, LEA, GETC and IN writes `cond`. -/
def Obligations.FlagFrame : Prop :=
  ∀ (i : Instr) (s t : State), exec i s = .next t → writesCond i = false → t.cond = s.cond

/-- R22: after the fetch, pc changes only through BR, JMP, JSR and JSRR. -/
def Obligations.ProgramCounterFrame : Prop :=
  ∀ (i : Instr) (s t : State), exec i s = .next t → i.isControlTransfer = false → t.pc = s.pc

/-- R38, R48 and R53: every Word of memory is unchanged but the one at the address a store computes, and KBSR and KBDR
if one of the instruction's MemReads is of KBSR_ADDR. A form that stores nothing has no store address. PUTS and PUTSP
read with no poll by the spec's own D10 (log 17). -/
def Obligations.MemoryFrame : Prop :=
  ∀ (i : Instr) (s t : State), exec i s = .next t → ∀ a : Word, storeAddress i s ≠ some a →
    ((a = kbsrAddr ∨ a = kbdrAddr) → kbsrAddr ∉ readAddresses i s) → t.word a = s.word a

/-- R37 and R90: only OUT, PUTS, IN, PUTSP and HALT emit; any other instruction leaves `out` as it was, but for the
cancel notice when cancellation ends it (D18; logs 12 and 19). -/
def Obligations.OutputFrame : Prop :=
  ∀ (i : Instr) (s t : State), exec i s = .next t → i.emitsOutput = false →
    t.out = s.out ∨ (s.cancel ≠ none ∧ t.run = .cancelled ∧ t.out = s.out ++ s.params.cancelNotice)

/-- R86, R87 and R90: `run` changes only by HALT, by the faults of RTI, RES and an unknown vector, and by cancellation
(CANCELLED and UNKNOWN_TRAP are the spec's own D18 and D8; logs 9 and 12). -/
def Obligations.RunStateFrame : Prop :=
  ∀ (i : Instr) (s t : State), exec i s = .next t → t.run = s.run ∨ (t.run = .cancelled ∧ s.cancel ≠ none) ∨
    (t.run = .halted ∧ i = .trapHalt) ∨
    (t.run = .faulted .unknownTrap (encode i) ∧ s.params.unknownTrap = .fault ∧ ∃ ign vec, i = .trapOther ign vec) ∨
    (t.run = .faulted .reservedOpcode (encode i) ∧ ∃ ign, i = .rti ign ∨ i = .res ign)

/-- 10_state.md R28 and 20_memory.md R46: the input is consumed only by GETC, IN and a MemRead of KBSR_ADDR. Only GETC, IN,
PUTS and PUTSP are left in flight (40_execution_cycle.md R91, 44_trap.md R122; the field is the model's own, logs 13 and
14). That no instruction changes an open parameter (00_scope.md R12 lists them) is the model's choice, one value kept for
each (log 9, unsafe where a block does not keep it). -/
def Obligations.InputFrame : Prop :=
  ∀ (i : Instr) (s t : State), exec i s = .next t → t.params = s.params ∧
    (i ≠ .trapGetc → i ≠ .trapIn → kbsrAddr ∉ readAddresses i s → t.input = s.input) ∧
    (i ≠ .trapGetc → i ≠ .trapIn → i ≠ .trapPuts → i ≠ .trapPutsp → t.inflight = s.inflight)

/-! ### The step -/

/-- R81 to R85: a step fetches the Word at pc with a MemRead, advances pc by one, and executes the instruction that the
Word decodes to. That the fetch is a MemRead is the spec's own D9 (log 17). -/
def Obligations.StepRunsDecodedInstruction : Prop :=
  ∀ (s : State) (i : Instr), s.run = .running → s.inflight = none → s.quiet 2 →
    decode (s.readValue s.pc) = some i →
    step s = exec i (((s.spend 2).afterRead s.pc).setPc (s.pc + 1))

/-- 40_execution_cycle.md R88: in a terminal state the block has no step; that the model's step answers the fault notRunning
there is its choice (log 15). R81: in any other state it has one, also while a service is held or a string goes on, in the
form the model chose for these (logs 13 and 14). -/
def Obligations.StepsExactlyWhileRunning : Prop :=
  ∀ s : State, (s.run ≠ .running → step s = .fault .notRunning) ∧ (s.run = .running → ∃ t, step s = .next t)

/-- 60_exceptions.md section 1: every instruction answers a next state, in every state. That entering FAULTED, a hold
and a cancellation are next states is the model's choice (logs 12 to 16). -/
def Obligations.EveryInstructionAnswersNext : Prop :=
  ∀ (i : Instr) (s : State), ∃ t, exec i s = .next t

/-- The invariant of Safety.lean holds at reset. -/
def Obligations.InvariantAtReset : Prop := State.reset.Inv

/-- Every step keeps the invariant: memory keeps its canonical form, and a service is in flight only while the block
runs, with R7 still the return address its TRAP saved. (The field is the model's own, logs 13 and 14.) -/
def Obligations.InvariantKeptByStep : Prop :=
  ∀ s t : State, s.Inv → step s = .next t → t.Inv

/-- 10_state.md R29, 40_execution_cycle.md R88: no step takes back a byte that was emitted, along any run. That the open
parameters (00_scope.md R12) never change is the model's choice, one value kept for each (log 9, unsafe where a block does
not keep it). -/
def Obligations.OutputOnlyGrows : Prop :=
  ∀ (k : Nat) (s t : State), Sys2Proof.core.run k s = .next t → s.out <+: t.out ∧ t.params = s.params

/-! ### Cancellation -/

/-- R90: cancellation that takes effect at once, while the block runs, enters CANCELLED, emits the notice, and nothing else
happens: no fetch, no character consumed, and no register, flag or memory word changes, whether or not a service was in
flight. The point of cancellation is the spec's own D18 (log 12), the notice whole and at once the model's choice (log 19). -/
def Obligations.CancellationAtOnce : Prop :=
  ∀ s : State, s.run = .running → s.cancel = some 0 → ∃ t, step s = .next t ∧ t.run = .cancelled ∧
    t.out = s.out ++ s.params.cancelNotice ∧ t.regs = s.regs ∧ t.pc = s.pc ∧ t.cond = s.cond ∧ t.mem = s.mem ∧
    t.input = s.input ∧ t.params = s.params

/-- R90: cancellation raised at any point either leaves the instruction to complete as it would have, or ends it in
CANCELLED with a first part of the bytes it would have emitted, and then the notice. The point is the spec's own D18
(log 12). -/
def Obligations.CancellationCutsTheInstructionShort : Prop :=
  ∀ (i : Instr) (s u t : State) (n : Nat),
    exec i { s with cancel := none } = .next u → exec i { s with cancel := some n } = .next t →
    (∃ m, m ≤ n ∧ t = { u with cancel := some m }) ∨
    (t.run = .cancelled ∧ ∃ e, s.out ++ e <+: u.out ∧ t.out = s.out ++ e ++ s.params.cancelNotice)

/-- R136: HALTED exits with 0; a reserved opcode and an unknown trap exit with one non-zero status, cancellation with a
non-zero status; a running block has none. The 0 and the exit of an unknown trap are the spec's own D20 (log 18). -/
def Obligations.ExitStatuses : Prop :=
  exitStatus .running = none ∧ exitStatus .halted = some 0 ∧
  (∃ n, n ≠ 0 ∧ ∀ info, exitStatus (.faulted .reservedOpcode info) = some n ∧
    exitStatus (.faulted .unknownTrap info) = some n) ∧
  (∃ n, n ≠ 0 ∧ exitStatus .cancelled = some n)
end

