-- ==== Sys2Proof/Laws/PerInstr.lean ====
section
/-! SUPPORT. Statements made per instruction. EncodedFields: the encoding of an instruction, read as a number, is the sum of
its fields at their positions (30_encoding.md R64 to R72), ignored bits at their published values. -/

namespace Sys2Proof

theorem asWord_toNat {n : Nat} (b : BitVec n) (h : n = 16) : (asWord b h).toNat = b.toNat := by simp [asWord]

/-- Concatenation as arithmetic: the first part above the second (00_scope.md R13). -/
theorem append_toNat {n m : Nat} (x : BitVec n) (y : BitVec m) : (x ++ y).toNat = x.toNat * 2 ^ m + y.toNat := by
  rw [BitVec.toNat_append, Nat.shiftLeft_eq, Nat.mul_comm, Nat.two_pow_add_eq_or_of_lt y.isLt]

@[simp] theorem bitsOfReg_toNat (r : Reg) : (bitsOfReg r).toNat = r := rfl

@[simp] theorem regOfBits_bitsOfReg (r : Reg) : regOfBits (bitsOfReg r) = r := rfl

@[simp] theorem bitsOfReg_regOfBits (b : BitVec 3) : bitsOfReg (regOfBits b) = b := rfl

/-- The fields of an instruction at their positions: the opcode from bit 12, DR from bit 9, SR1 or BaseR from bit 6. -/
def Instr.fieldSum : Instr → Nat
  | .addReg dr a b => 0x1000 + dr * 512 + a * 64 + b
  | .addImm dr a imm => 0x1000 + dr * 512 + a * 64 + 32 + imm.toNat
  | .andReg dr a b => 0x5000 + dr * 512 + a * 64 + b
  | .andImm dr a imm => 0x5000 + dr * 512 + a * 64 + 32 + imm.toNat
  | .not dr a => 0x9000 + dr * 512 + a * 64 + 63
  | .br nzp off => nzp.toNat * 512 + off.toNat
  | .jmp b => 0xC000 + b * 64
  | .jsr off => 0x4800 + off.toNat
  | .jsrr b => 0x4000 + b * 64
  | .ld dr off => 0x2000 + dr * 512 + off.toNat
  | .ldi dr off => 0xA000 + dr * 512 + off.toNat
  | .ldr dr b off => 0x6000 + dr * 512 + b * 64 + off.toNat
  | .lea dr off => 0xE000 + dr * 512 + off.toNat
  | .st sr off => 0x3000 + sr * 512 + off.toNat
  | .sti sr off => 0xB000 + sr * 512 + off.toNat
  | .str sr b off => 0x7000 + sr * 512 + b * 64 + off.toNat
  | .trapGetc => 0xF020
  | .trapOut => 0xF021
  | .trapPuts => 0xF022
  | .trapIn => 0xF023
  | .trapPutsp => 0xF024
  | .trapHalt => 0xF025
  | .trapOther ign vec => 0xF000 + ign.toNat * 256 + vec.toNat
  | .rti ign => 0x8000 + ign.toNat
  | .res ign => 0xD000 + ign.toNat

end Sys2Proof

namespace Sys2Proof.Laws.EncodedFields

/-- The encoding is the sum of the fields. -/
def Statement (i : Instr) : Prop := (encode i).toNat = i.fieldSum

theorem addReg (dr sr1 sr2 : Reg) : Statement (.addReg dr sr1 sr2) := by
  simp only [Statement, encode, asWord_toNat, append_toNat, Instr.fieldSum, bitsOfReg_toNat]; simp; omega
theorem addImm (dr sr1 : Reg) (imm5 : BitVec 5) : Statement (.addImm dr sr1 imm5) := by
  simp only [Statement, encode, asWord_toNat, append_toNat, Instr.fieldSum, bitsOfReg_toNat]; simp; omega
theorem andReg (dr sr1 sr2 : Reg) : Statement (.andReg dr sr1 sr2) := by
  simp only [Statement, encode, asWord_toNat, append_toNat, Instr.fieldSum, bitsOfReg_toNat]; simp; omega
theorem andImm (dr sr1 : Reg) (imm5 : BitVec 5) : Statement (.andImm dr sr1 imm5) := by
  simp only [Statement, encode, asWord_toNat, append_toNat, Instr.fieldSum, bitsOfReg_toNat]; simp; omega
theorem not (dr sr : Reg) : Statement (.not dr sr) := by
  simp only [Statement, encode, asWord_toNat, append_toNat, Instr.fieldSum, bitsOfReg_toNat]; simp; omega
theorem br (nzp : BitVec 3) (off9 : BitVec 9) : Statement (.br nzp off9) := by
  simp only [Statement, encode, asWord_toNat, append_toNat, Instr.fieldSum]; simp
theorem jmp (baseR : Reg) : Statement (.jmp baseR) := by
  simp only [Statement, encode, asWord_toNat, append_toNat, Instr.fieldSum, bitsOfReg_toNat]; simp; omega
theorem jsr (off11 : BitVec 11) : Statement (.jsr off11) := by
  simp only [Statement, encode, asWord_toNat, append_toNat, Instr.fieldSum]; simp
theorem jsrr (baseR : Reg) : Statement (.jsrr baseR) := by
  simp only [Statement, encode, asWord_toNat, append_toNat, Instr.fieldSum, bitsOfReg_toNat]; simp; omega
theorem ld (dr : Reg) (off9 : BitVec 9) : Statement (.ld dr off9) := by
  simp only [Statement, encode, asWord_toNat, append_toNat, Instr.fieldSum, bitsOfReg_toNat]; simp; omega
theorem ldi (dr : Reg) (off9 : BitVec 9) : Statement (.ldi dr off9) := by
  simp only [Statement, encode, asWord_toNat, append_toNat, Instr.fieldSum, bitsOfReg_toNat]; simp; omega
theorem ldr (dr baseR : Reg) (off6 : BitVec 6) : Statement (.ldr dr baseR off6) := by
  simp only [Statement, encode, asWord_toNat, append_toNat, Instr.fieldSum, bitsOfReg_toNat]; simp; omega
theorem lea (dr : Reg) (off9 : BitVec 9) : Statement (.lea dr off9) := by
  simp only [Statement, encode, asWord_toNat, append_toNat, Instr.fieldSum, bitsOfReg_toNat]; simp; omega
theorem st (sr : Reg) (off9 : BitVec 9) : Statement (.st sr off9) := by
  simp only [Statement, encode, asWord_toNat, append_toNat, Instr.fieldSum, bitsOfReg_toNat]; simp; omega
theorem sti (sr : Reg) (off9 : BitVec 9) : Statement (.sti sr off9) := by
  simp only [Statement, encode, asWord_toNat, append_toNat, Instr.fieldSum, bitsOfReg_toNat]; simp; omega
theorem str (sr baseR : Reg) (off6 : BitVec 6) : Statement (.str sr baseR off6) := by
  simp only [Statement, encode, asWord_toNat, append_toNat, Instr.fieldSum, bitsOfReg_toNat]; simp; omega
theorem trapGetc : Statement .trapGetc := by unfold Statement; decide
theorem trapOut : Statement .trapOut := by unfold Statement; decide
theorem trapPuts : Statement .trapPuts := by unfold Statement; decide
theorem trapIn : Statement .trapIn := by unfold Statement; decide
theorem trapPutsp : Statement .trapPutsp := by unfold Statement; decide
theorem trapHalt : Statement .trapHalt := by unfold Statement; decide
theorem trapOther (ign : BitVec 4) (vec : BitVec 8) : Statement (.trapOther ign vec) := by
  simp only [Statement, encode, asWord_toNat, append_toNat, Instr.fieldSum]; simp; omega
theorem rti (ign : BitVec 12) : Statement (.rti ign) := by
  simp only [Statement, encode, asWord_toNat, append_toNat, Instr.fieldSum]; simp
theorem res (ign : BitVec 12) : Statement (.res ign) := by
  simp only [Statement, encode, asWord_toNat, append_toNat, Instr.fieldSum]; simp

end Sys2Proof.Laws.EncodedFields
end

