-- ==== Sys2Proof/Laws/Encoding.lean ====
section
/-! SUPPORT. The decoder's fields as arithmetic on the Word, and masked Words compared bit by bit. -/

namespace Sys2Proof

theorem opcodeField_toNat (w : Word) : (opcodeField w).toNat = w.toNat / 4096 := by
  have := w.isLt
  simp [opcodeField, Nat.shiftRight_eq_div_pow]
  omega

theorem drField_val (w : Word) : (drField w : Nat) = w.toNat / 512 % 8 := by
  simp [drField, regOfBits, Nat.shiftRight_eq_div_pow]

theorem srField_val (w : Word) : (srField w : Nat) = w.toNat / 64 % 8 := by
  simp [srField, regOfBits, Nat.shiftRight_eq_div_pow]

theorem sr2Field_val (w : Word) : (sr2Field w : Nat) = w.toNat % 8 := by
  simp [sr2Field, regOfBits]

theorem nzpField_toNat (w : Word) : (nzpField w).toNat = w.toNat / 512 % 8 := by
  simp [nzpField, Nat.shiftRight_eq_div_pow]

theorem imm5Field_toNat (w : Word) : (imm5Field w).toNat = w.toNat % 32 := by simp [imm5Field]

theorem off6Field_toNat (w : Word) : (off6Field w).toNat = w.toNat % 64 := by simp [off6Field]

theorem off9Field_toNat (w : Word) : (off9Field w).toNat = w.toNat % 512 := by simp [off9Field]

theorem off11Field_toNat (w : Word) : (off11Field w).toNat = w.toNat % 2048 := by simp [off11Field]

theorem trapField_toNat (w : Word) : (trapField w).toNat = w.toNat % 256 := by simp [trapField]

theorem immMode_eq (w : Word) : immMode w = decide (w.toNat / 32 % 2 = 1) := by
  simp [immMode, BitVec.getLsbD, Nat.testBit_eq_decide_div_mod_eq]

theorem jsrMode_eq (w : Word) : jsrMode w = decide (w.toNat / 2048 % 2 = 1) := by
  simp [jsrMode, BitVec.getLsbD, Nat.testBit_eq_decide_div_mod_eq]

/-- The opcode's bits in the Word. -/
theorem getLsbD_of_opcodeField {w : Word} {n : BitVec 4} (h : opcodeField w = n) {j : Nat} (hj : j < 4) :
    w.getLsbD (12 + j) = n.getLsbD j := by
  subst h
  simp [opcodeField, hj]

/-- Two Words agree under a mask exactly if they agree at each of its bits. -/
theorem and_mask_eq_iff {x y m : Word} :
    x &&& m = y &&& m ↔ ∀ i, i < 16 → m.getLsbD i = true → x.getLsbD i = y.getLsbD i := by
  constructor
  · intro h i _ hm
    have := congrArg (fun z => BitVec.getLsbD z i) h
    simpa [BitVec.getLsbD_and, hm] using this
  · intro h
    apply BitVec.eq_of_getLsbD_eq
    intro i hi
    simp only [BitVec.getLsbD_and]
    cases hm : m.getLsbD i with
    | false => simp
    | true => simp [h i hi hm]

theorem getLsbD_asWord {n : Nat} (b : BitVec n) (h : n = 16) (i : Nat) :
    (asWord b h).getLsbD i = b.getLsbD i := by
  subst h
  simp [asWord]

end Sys2Proof
end

