-- ==== Sys2Proof/Laws/State.lean ====
section
/-! SUPPORT. For each state update one lemma per field, so that no later proof unfolds a record update; then how updates
meet the accessors `reg`, `word`, `quiet` and each other. -/

namespace Sys2Proof.Machine

variable (s : State)

/-! ### setReg -/

@[simp] theorem State.setReg_regs (r : Reg) (v : Word) : (s.setReg r v).regs = s.regs.set r v := rfl
@[simp] theorem State.setReg_pc (r : Reg) (v : Word) : (s.setReg r v).pc = s.pc := rfl
@[simp] theorem State.setReg_cond (r : Reg) (v : Word) : (s.setReg r v).cond = s.cond := rfl
@[simp] theorem State.setReg_mem (r : Reg) (v : Word) : (s.setReg r v).mem = s.mem := rfl
@[simp] theorem State.setReg_run (r : Reg) (v : Word) : (s.setReg r v).run = s.run := rfl
@[simp] theorem State.setReg_out (r : Reg) (v : Word) : (s.setReg r v).out = s.out := rfl
@[simp] theorem State.setReg_input (r : Reg) (v : Word) : (s.setReg r v).input = s.input := rfl
@[simp] theorem State.setReg_cancel (r : Reg) (v : Word) : (s.setReg r v).cancel = s.cancel := rfl
@[simp] theorem State.setReg_inflight (r : Reg) (v : Word) : (s.setReg r v).inflight = s.inflight := rfl
@[simp] theorem State.setReg_params (r : Reg) (v : Word) : (s.setReg r v).params = s.params := rfl

/-! ### setPc -/

@[simp] theorem State.setPc_regs (v : Word) : (s.setPc v).regs = s.regs := rfl
@[simp] theorem State.setPc_pc (v : Word) : (s.setPc v).pc = v := rfl
@[simp] theorem State.setPc_cond (v : Word) : (s.setPc v).cond = s.cond := rfl
@[simp] theorem State.setPc_mem (v : Word) : (s.setPc v).mem = s.mem := rfl
@[simp] theorem State.setPc_run (v : Word) : (s.setPc v).run = s.run := rfl
@[simp] theorem State.setPc_out (v : Word) : (s.setPc v).out = s.out := rfl
@[simp] theorem State.setPc_input (v : Word) : (s.setPc v).input = s.input := rfl
@[simp] theorem State.setPc_cancel (v : Word) : (s.setPc v).cancel = s.cancel := rfl
@[simp] theorem State.setPc_inflight (v : Word) : (s.setPc v).inflight = s.inflight := rfl
@[simp] theorem State.setPc_params (v : Word) : (s.setPc v).params = s.params := rfl

/-! ### setCond -/

@[simp] theorem State.setCond_regs (c : Cond) : (s.setCond c).regs = s.regs := rfl
@[simp] theorem State.setCond_pc (c : Cond) : (s.setCond c).pc = s.pc := rfl
@[simp] theorem State.setCond_cond (c : Cond) : (s.setCond c).cond = c := rfl
@[simp] theorem State.setCond_mem (c : Cond) : (s.setCond c).mem = s.mem := rfl
@[simp] theorem State.setCond_run (c : Cond) : (s.setCond c).run = s.run := rfl
@[simp] theorem State.setCond_out (c : Cond) : (s.setCond c).out = s.out := rfl
@[simp] theorem State.setCond_input (c : Cond) : (s.setCond c).input = s.input := rfl
@[simp] theorem State.setCond_cancel (c : Cond) : (s.setCond c).cancel = s.cancel := rfl
@[simp] theorem State.setCond_inflight (c : Cond) : (s.setCond c).inflight = s.inflight := rfl
@[simp] theorem State.setCond_params (c : Cond) : (s.setCond c).params = s.params := rfl

/-! ### setRun -/

@[simp] theorem State.setRun_regs (r : RunState) : (s.setRun r).regs = s.regs := rfl
@[simp] theorem State.setRun_pc (r : RunState) : (s.setRun r).pc = s.pc := rfl
@[simp] theorem State.setRun_cond (r : RunState) : (s.setRun r).cond = s.cond := rfl
@[simp] theorem State.setRun_mem (r : RunState) : (s.setRun r).mem = s.mem := rfl
@[simp] theorem State.setRun_run (r : RunState) : (s.setRun r).run = r := rfl
@[simp] theorem State.setRun_out (r : RunState) : (s.setRun r).out = s.out := rfl
@[simp] theorem State.setRun_input (r : RunState) : (s.setRun r).input = s.input := rfl
@[simp] theorem State.setRun_cancel (r : RunState) : (s.setRun r).cancel = s.cancel := rfl
@[simp] theorem State.setRun_inflight (r : RunState) : (s.setRun r).inflight = s.inflight := rfl
@[simp] theorem State.setRun_params (r : RunState) : (s.setRun r).params = s.params := rfl

/-! ### setInflight -/

@[simp] theorem State.setInflight_regs (p : Option Service) : (s.setInflight p).regs = s.regs := rfl
@[simp] theorem State.setInflight_pc (p : Option Service) : (s.setInflight p).pc = s.pc := rfl
@[simp] theorem State.setInflight_cond (p : Option Service) : (s.setInflight p).cond = s.cond := rfl
@[simp] theorem State.setInflight_mem (p : Option Service) : (s.setInflight p).mem = s.mem := rfl
@[simp] theorem State.setInflight_run (p : Option Service) : (s.setInflight p).run = s.run := rfl
@[simp] theorem State.setInflight_out (p : Option Service) : (s.setInflight p).out = s.out := rfl
@[simp] theorem State.setInflight_input (p : Option Service) : (s.setInflight p).input = s.input := rfl
@[simp] theorem State.setInflight_cancel (p : Option Service) : (s.setInflight p).cancel = s.cancel := rfl
@[simp] theorem State.setInflight_inflight (p : Option Service) : (s.setInflight p).inflight = p := rfl
@[simp] theorem State.setInflight_params (p : Option Service) : (s.setInflight p).params = s.params := rfl

/-! ### store -/

@[simp] theorem State.store_regs (a v : Word) : (s.store a v).regs = s.regs := rfl
@[simp] theorem State.store_pc (a v : Word) : (s.store a v).pc = s.pc := rfl
@[simp] theorem State.store_cond (a v : Word) : (s.store a v).cond = s.cond := rfl
@[simp] theorem State.store_mem (a v : Word) : (s.store a v).mem = s.mem.write a.toNat v := rfl
@[simp] theorem State.store_run (a v : Word) : (s.store a v).run = s.run := rfl
@[simp] theorem State.store_out (a v : Word) : (s.store a v).out = s.out := rfl
@[simp] theorem State.store_input (a v : Word) : (s.store a v).input = s.input := rfl
@[simp] theorem State.store_cancel (a v : Word) : (s.store a v).cancel = s.cancel := rfl
@[simp] theorem State.store_inflight (a v : Word) : (s.store a v).inflight = s.inflight := rfl
@[simp] theorem State.store_params (a v : Word) : (s.store a v).params = s.params := rfl

/-! ### emit -/

@[simp] theorem State.emit_regs (bs : List Byte) : (s.emit bs).regs = s.regs := rfl
@[simp] theorem State.emit_pc (bs : List Byte) : (s.emit bs).pc = s.pc := rfl
@[simp] theorem State.emit_cond (bs : List Byte) : (s.emit bs).cond = s.cond := rfl
@[simp] theorem State.emit_mem (bs : List Byte) : (s.emit bs).mem = s.mem := rfl
@[simp] theorem State.emit_run (bs : List Byte) : (s.emit bs).run = s.run := rfl
@[simp] theorem State.emit_out (bs : List Byte) : (s.emit bs).out = s.out ++ bs := rfl
@[simp] theorem State.emit_input (bs : List Byte) : (s.emit bs).input = s.input := rfl
@[simp] theorem State.emit_cancel (bs : List Byte) : (s.emit bs).cancel = s.cancel := rfl
@[simp] theorem State.emit_inflight (bs : List Byte) : (s.emit bs).inflight = s.inflight := rfl
@[simp] theorem State.emit_params (bs : List Byte) : (s.emit bs).params = s.params := rfl

/-! ### setInput -/

@[simp] theorem State.setInput_regs (ks : List Key) : (s.setInput ks).regs = s.regs := rfl
@[simp] theorem State.setInput_pc (ks : List Key) : (s.setInput ks).pc = s.pc := rfl
@[simp] theorem State.setInput_cond (ks : List Key) : (s.setInput ks).cond = s.cond := rfl
@[simp] theorem State.setInput_mem (ks : List Key) : (s.setInput ks).mem = s.mem := rfl
@[simp] theorem State.setInput_run (ks : List Key) : (s.setInput ks).run = s.run := rfl
@[simp] theorem State.setInput_out (ks : List Key) : (s.setInput ks).out = s.out := rfl
@[simp] theorem State.setInput_input (ks : List Key) : (s.setInput ks).input = ks := rfl
@[simp] theorem State.setInput_cancel (ks : List Key) : (s.setInput ks).cancel = s.cancel := rfl
@[simp] theorem State.setInput_inflight (ks : List Key) : (s.setInput ks).inflight = s.inflight := rfl
@[simp] theorem State.setInput_params (ks : List Key) : (s.setInput ks).params = s.params := rfl

/-! ### spend -/

@[simp] theorem State.spend_regs (k : Nat) : (s.spend k).regs = s.regs := rfl
@[simp] theorem State.spend_pc (k : Nat) : (s.spend k).pc = s.pc := rfl
@[simp] theorem State.spend_cond (k : Nat) : (s.spend k).cond = s.cond := rfl
@[simp] theorem State.spend_mem (k : Nat) : (s.spend k).mem = s.mem := rfl
@[simp] theorem State.spend_run (k : Nat) : (s.spend k).run = s.run := rfl
@[simp] theorem State.spend_out (k : Nat) : (s.spend k).out = s.out := rfl
@[simp] theorem State.spend_input (k : Nat) : (s.spend k).input = s.input := rfl
@[simp] theorem State.spend_cancel (k : Nat) : (s.spend k).cancel = s.cancel.map (· - k) := rfl
@[simp] theorem State.spend_inflight (k : Nat) : (s.spend k).inflight = s.inflight := rfl
@[simp] theorem State.spend_params (k : Nat) : (s.spend k).params = s.params := rfl

/-! ### enterCancelled -/

@[simp] theorem State.enterCancelled_regs : s.enterCancelled.regs = s.regs := rfl
@[simp] theorem State.enterCancelled_pc : s.enterCancelled.pc = s.pc := rfl
@[simp] theorem State.enterCancelled_cond : s.enterCancelled.cond = s.cond := rfl
@[simp] theorem State.enterCancelled_mem : s.enterCancelled.mem = s.mem := rfl
@[simp] theorem State.enterCancelled_run : s.enterCancelled.run = .cancelled := rfl
@[simp] theorem State.enterCancelled_out : s.enterCancelled.out = s.out ++ s.params.cancelNotice := rfl
@[simp] theorem State.enterCancelled_input : s.enterCancelled.input = s.input := rfl
@[simp] theorem State.enterCancelled_cancel : s.enterCancelled.cancel = none := rfl
@[simp] theorem State.enterCancelled_inflight : s.enterCancelled.inflight = s.inflight := rfl
@[simp] theorem State.enterCancelled_params : s.enterCancelled.params = s.params := rfl

/-! ### The keyboard poll writes memory and the input only -/

@[simp] theorem State.poll_regs : s.poll.regs = s.regs := by
  unfold State.poll; split <;> try split
  all_goals rfl
@[simp] theorem State.poll_pc : s.poll.pc = s.pc := by
  unfold State.poll; split <;> try split
  all_goals rfl
@[simp] theorem State.poll_cond : s.poll.cond = s.cond := by
  unfold State.poll; split <;> try split
  all_goals rfl
@[simp] theorem State.poll_run : s.poll.run = s.run := by
  unfold State.poll; split <;> try split
  all_goals rfl
@[simp] theorem State.poll_out : s.poll.out = s.out := by
  unfold State.poll; split <;> try split
  all_goals rfl
@[simp] theorem State.poll_cancel : s.poll.cancel = s.cancel := by
  unfold State.poll; split <;> try split
  all_goals rfl
@[simp] theorem State.poll_inflight : s.poll.inflight = s.inflight := by
  unfold State.poll; split <;> try split
  all_goals rfl
@[simp] theorem State.poll_params : s.poll.params = s.params := by
  unfold State.poll; split <;> try split
  all_goals rfl

@[simp] theorem State.afterRead_regs (a : Word) : (s.afterRead a).regs = s.regs := by
  unfold State.afterRead; split <;> simp
@[simp] theorem State.afterRead_pc (a : Word) : (s.afterRead a).pc = s.pc := by
  unfold State.afterRead; split <;> simp
@[simp] theorem State.afterRead_cond (a : Word) : (s.afterRead a).cond = s.cond := by
  unfold State.afterRead; split <;> simp
@[simp] theorem State.afterRead_run (a : Word) : (s.afterRead a).run = s.run := by
  unfold State.afterRead; split <;> simp
@[simp] theorem State.afterRead_out (a : Word) : (s.afterRead a).out = s.out := by
  unfold State.afterRead; split <;> simp
@[simp] theorem State.afterRead_cancel (a : Word) : (s.afterRead a).cancel = s.cancel := by
  unfold State.afterRead; split <;> simp
@[simp] theorem State.afterRead_inflight (a : Word) : (s.afterRead a).inflight = s.inflight := by
  unfold State.afterRead; split <;> simp
@[simp] theorem State.afterRead_params (a : Word) : (s.afterRead a).params = s.params := by
  unfold State.afterRead; split <;> simp

/-! ### Registers -/

theorem State.reg_setReg (r q : Reg) (v : Word) : (s.setReg r v).reg q = if q = r then v else s.reg q := by
  by_cases h : q = r
  · subst h; simp [State.reg]
  · have : (r : Nat) ≠ q := fun e => h (Fin.ext e.symm)
    simp [State.reg, h, Vector.getElem_set_ne, this]

@[simp] theorem State.reg_setReg_self (r : Reg) (v : Word) : (s.setReg r v).reg r = v := by
  simp [State.reg_setReg]

theorem State.reg_setReg_of_ne {r q : Reg} (h : q ≠ r) (v : Word) : (s.setReg r v).reg q = s.reg q := by
  simp [State.reg_setReg, h]

@[simp] theorem State.reg_setPc (v : Word) (q : Reg) : (s.setPc v).reg q = s.reg q := rfl
@[simp] theorem State.reg_setCond (c : Cond) (q : Reg) : (s.setCond c).reg q = s.reg q := rfl
@[simp] theorem State.reg_setRun (r : RunState) (q : Reg) : (s.setRun r).reg q = s.reg q := rfl
@[simp] theorem State.reg_setInflight (p : Option Service) (q : Reg) : (s.setInflight p).reg q = s.reg q := rfl
@[simp] theorem State.reg_store (a v : Word) (q : Reg) : (s.store a v).reg q = s.reg q := rfl
@[simp] theorem State.reg_emit (bs : List Byte) (q : Reg) : (s.emit bs).reg q = s.reg q := rfl
@[simp] theorem State.reg_setInput (ks : List Key) (q : Reg) : (s.setInput ks).reg q = s.reg q := rfl
@[simp] theorem State.reg_spend (k : Nat) (q : Reg) : (s.spend k).reg q = s.reg q := rfl
@[simp] theorem State.reg_enterCancelled (q : Reg) : s.enterCancelled.reg q = s.reg q := rfl
@[simp] theorem State.reg_poll (q : Reg) : s.poll.reg q = s.reg q := by simp [State.reg]
@[simp] theorem State.reg_afterRead (a : Word) (q : Reg) : (s.afterRead a).reg q = s.reg q := by simp [State.reg]

/-! ### Words of memory that an update does not touch -/

@[simp] theorem State.word_setReg (r : Reg) (v : Word) (a : Word) : (s.setReg r v).word a = s.word a := rfl
@[simp] theorem State.word_setPc (v : Word) (a : Word) : (s.setPc v).word a = s.word a := rfl
@[simp] theorem State.word_setCond (c : Cond) (a : Word) : (s.setCond c).word a = s.word a := rfl
@[simp] theorem State.word_setRun (r : RunState) (a : Word) : (s.setRun r).word a = s.word a := rfl
@[simp] theorem State.word_setInflight (p : Option Service) (a : Word) : (s.setInflight p).word a = s.word a := rfl
@[simp] theorem State.word_emit (bs : List Byte) (a : Word) : (s.emit bs).word a = s.word a := rfl
@[simp] theorem State.word_setInput (ks : List Key) (a : Word) : (s.setInput ks).word a = s.word a := rfl
@[simp] theorem State.word_spend (k : Nat) (a : Word) : (s.spend k).word a = s.word a := rfl
@[simp] theorem State.word_enterCancelled (a : Word) : s.enterCancelled.word a = s.word a := rfl

/-! ### The host's cancellation count -/

@[simp] theorem State.quiet_zero : s.quiet 0 := fun _ _ => Nat.zero_le _

theorem State.spend_of_none {s : State} (h : s.cancel = none) (k : Nat) : s.spend k = s := by
  cases s; cases h; rfl

/-! ### The host's cancellation (R39, R138; log 12) -/

theorem State.hostCancel_of_running {s : State} (h : s.run = .running) (n : Nat) :
    s.hostCancel n = { s with cancel := some (cancelPoint s.cancel n) } := by
  unfold State.hostCancel; rw [h]

/-- A second request never puts off the first. -/
theorem cancelPoint_le_pending (m n : Nat) : cancelPoint (some m) n ≤ m := Nat.min_le_left m n

theorem State.hostCancel_of_terminal {s : State} (h : s.run ≠ .running) (n : Nat) : s.hostCancel n = s := by
  unfold State.hostCancel; split <;> simp_all

theorem State.quiet_of_none (h : s.cancel = none) (k : Nat) : s.quiet k := by simp [State.quiet, h]

theorem State.quiet_mono {s : State} {j k : Nat} (h : s.quiet k) (hjk : j ≤ k) : s.quiet j :=
  fun n hn => le_trans hjk (h n hn)

theorem State.quiet_spend {s : State} {j k : Nat} (h : s.quiet (j + k)) : (s.spend j).quiet k := by
  intro n hn
  simp only [State.spend_cancel, Option.map_eq_some_iff] at hn
  obtain ⟨m, hm, rfl⟩ := hn
  have := h m hm
  omega

@[simp] theorem State.quiet_setReg (r : Reg) (v : Word) (k : Nat) : (s.setReg r v).quiet k ↔ s.quiet k := Iff.rfl
@[simp] theorem State.quiet_setPc (v : Word) (k : Nat) : (s.setPc v).quiet k ↔ s.quiet k := Iff.rfl
@[simp] theorem State.quiet_setCond (c : Cond) (k : Nat) : (s.setCond c).quiet k ↔ s.quiet k := Iff.rfl
@[simp] theorem State.quiet_setRun (r : RunState) (k : Nat) : (s.setRun r).quiet k ↔ s.quiet k := Iff.rfl
@[simp] theorem State.quiet_setInflight (p : Option Service) (k : Nat) : (s.setInflight p).quiet k ↔ s.quiet k := Iff.rfl
@[simp] theorem State.quiet_store (a v : Word) (k : Nat) : (s.store a v).quiet k ↔ s.quiet k := Iff.rfl
@[simp] theorem State.quiet_emit (bs : List Byte) (k : Nat) : (s.emit bs).quiet k ↔ s.quiet k := Iff.rfl
@[simp] theorem State.quiet_setInput (ks : List Key) (k : Nat) : (s.setInput ks).quiet k ↔ s.quiet k := Iff.rfl
@[simp] theorem State.quiet_afterRead (a : Word) (k : Nat) : (s.afterRead a).quiet k ↔ s.quiet k := by
  simp [State.quiet]

/-- Before any primitive action, cancellation takes effect now or the action is free of it. -/
theorem State.quiet_or_struck : s.quiet 1 ∨ s.cancel = some 0 := by
  unfold State.quiet
  cases h : s.cancel with
  | none => simp
  | some n => cases n <;> simp

@[simp] theorem State.spend_zero : s.spend 0 = s := by
  cases s with | mk _ _ _ _ _ _ _ c _ _ => cases c <;> rfl

@[simp] theorem State.spend_spend (j k : Nat) : (s.spend j).spend k = s.spend (j + k) := by
  cases s with | mk _ _ _ _ _ _ _ c _ _ => cases c <;> simp [State.spend, Nat.sub_sub]

@[simp] theorem State.spend_setReg_comm (r : Reg) (v : Word) (j : Nat) : (s.setReg r v).spend j = (s.spend j).setReg r v := rfl
@[simp] theorem State.spend_setPc_comm (v : Word) (j : Nat) : (s.setPc v).spend j = (s.spend j).setPc v := rfl
@[simp] theorem State.spend_setCond_comm (c : Cond) (j : Nat) : (s.setCond c).spend j = (s.spend j).setCond c := rfl
@[simp] theorem State.spend_setRun_comm (r : RunState) (j : Nat) : (s.setRun r).spend j = (s.spend j).setRun r := rfl
@[simp] theorem State.spend_setInflight_comm (p : Option Service) (j : Nat) : (s.setInflight p).spend j = (s.spend j).setInflight p := rfl
@[simp] theorem State.spend_store_comm (a v : Word) (j : Nat) : (s.store a v).spend j = (s.spend j).store a v := rfl
@[simp] theorem State.spend_emit_comm (bs : List Byte) (j : Nat) : (s.emit bs).spend j = (s.spend j).emit bs := rfl
@[simp] theorem State.spend_setInput_comm (ks : List Key) (j : Nat) : (s.setInput ks).spend j = (s.spend j).setInput ks := rfl

@[simp] theorem State.spend_poll_comm (j : Nat) : s.poll.spend j = (s.spend j).poll := by
  cases s with | mk _ _ _ _ _ _ i _ _ _ =>
  cases i with
  | nil => rfl
  | cons k ks =>
    obtain ⟨n, c⟩ := k
    cases n <;> rfl

@[simp] theorem State.spend_afterRead_comm (a : Word) (j : Nat) : (s.afterRead a).spend j = (s.spend j).afterRead a := by
  unfold State.afterRead; split <;> simp

@[simp] theorem State.readValue_spend (a : Word) (j : Nat) : (s.spend j).readValue a = s.readValue a := by
  unfold State.readValue; rw [← State.spend_afterRead_comm]; rfl

@[simp] theorem State.readValue_spend_afterRead (a b : Word) (j : Nat) :
    ((s.spend j).afterRead a).readValue b = (s.afterRead a).readValue b := by
  rw [← State.spend_afterRead_comm, State.readValue_spend]

/-- Two updates of one field: the later one stands. -/
@[simp] theorem State.setInflight_setInflight (p q : Option Service) : (s.setInflight p).setInflight q = s.setInflight q := rfl

@[simp] theorem State.emit_nil : s.emit [] = s := by simp [State.emit]

@[simp] theorem State.emit_emit (bs cs : List Byte) : (s.emit bs).emit cs = s.emit (bs ++ cs) := by
  simp [State.emit]

end Sys2Proof.Machine
end

