-- ==== Sys2Proof/Laws/Memory.lean ====
section
/-! SUPPORT. The laws of the memory array: a read after a write, and that every memory operation keeps the canonical
form. -/

namespace Sys2Proof.Machine

/-! ### Reading after writing -/

theorem Memory.read_filter_self (m : Memory) (a : Nat) :
    Memory.read (m.filter fun c => c.1 != a) a = unwritten := by
  induction m with
  | nil => rfl
  | cons c m ih =>
    obtain ⟨b, w⟩ := c
    by_cases h : b = a
    · simp [h, ih]
    · simp [h, Memory.read, Ne.symm h, ih]

theorem Memory.read_filter_of_ne (m : Memory) {a b : Nat} (h : b ≠ a) :
    Memory.read (m.filter fun c => c.1 != a) b = Memory.read m b := by
  induction m with
  | nil => rfl
  | cons c m ih =>
    obtain ⟨d, w⟩ := c
    by_cases hd : d = a
    · subst hd; simp [Memory.read, h, ih]
    · simp [hd, Memory.read, ih]

theorem Memory.read_insert_self (m : Memory) (a : Nat) (v : Word) : Memory.read (m.insert a v) a = v := by
  induction m with
  | nil => simp [Memory.insert, Memory.read]
  | cons c m ih =>
    obtain ⟨b, w⟩ := c
    unfold Memory.insert
    split
    · simp [Memory.read]
    · split
      · simp [Memory.read]
      · rename_i h; simp [Memory.read, h, ih]

theorem Memory.read_insert_of_ne (m : Memory) {a b : Nat} (h : b ≠ a) (v : Word) :
    Memory.read (m.insert a v) b = Memory.read m b := by
  induction m with
  | nil => simp [Memory.insert, Memory.read, h]
  | cons c m ih =>
    obtain ⟨d, w⟩ := c
    unfold Memory.insert
    split
    · simp [Memory.read, h]
    · split
      · rename_i hd; subst hd; simp [Memory.read, h]
      · simp [Memory.read, ih]

/-- A read after a write: the value written at that address, what was there before at any other. -/
theorem Memory.read_write (m : Memory) (a b : Nat) (v : Word) :
    (m.write a v).read b = if b = a then v else m.read b := by
  unfold Memory.write
  by_cases h : b = a
  · subst h
    by_cases hv : v = unwritten
    · simp [hv, Memory.read_filter_self]
    · simp [hv, Memory.read_insert_self]
  · by_cases hv : v = unwritten
    · simp [hv, h, Memory.read_filter_of_ne]
    · simp [hv, h, Memory.read_insert_of_ne]

/-- The same of the words of a State (20_memory.md R48, R56). -/
theorem State.word_store (s : State) (a b v : Word) : (s.store a v).word b = if b = a then v else s.word b := by
  simp [State.word, Memory.read_write, BitVec.toNat_inj]

@[simp] theorem State.word_store_self (s : State) (a v : Word) : (s.store a v).word a = v := by
  simp [State.word_store]

theorem State.word_store_of_ne (s : State) {a b : Word} (h : b ≠ a) (v : Word) : (s.store a v).word b = s.word b := by
  simp [State.word_store, h]

/-! ### The canonical form -/

theorem Memory.mem_insert {m : Memory} {a : Nat} {v : Word} {c : Cell} (h : c ∈ m.insert a v) : c = (a, v) ∨ c ∈ m := by
  induction m with
  | nil => simpa [Memory.insert] using h
  | cons d m ih =>
    unfold Memory.insert at h
    split at h
    · simpa using h
    · split at h
      · rcases List.mem_cons.1 h with rfl | h
        · exact .inl rfl
        · exact .inr (List.mem_cons_of_mem _ h)
      · rcases List.mem_cons.1 h with rfl | h
        · exact .inr List.mem_cons_self
        · rcases ih h with h | h
          · exact .inl h
          · exact .inr (List.mem_cons_of_mem _ h)

theorem Memory.insert_rising {m : Memory} (h : m.Pairwise fun c d => c.1 < d.1) (a : Nat) (v : Word) :
    (m.insert a v).Pairwise fun c d => c.1 < d.1 := by
  induction m with
  | nil => simp [Memory.insert]
  | cons c m ih =>
    obtain ⟨hc, hm⟩ := List.pairwise_cons.1 h
    unfold Memory.insert
    split
    · rename_i hlt
      refine List.pairwise_cons.2 ⟨fun d hd => ?_, h⟩
      rcases List.mem_cons.1 hd with rfl | hd
      · exact hlt
      · exact lt_trans hlt (hc d hd)
    · split
      · rename_i heq
        exact List.pairwise_cons.2 ⟨fun d hd => heq ▸ hc d hd, hm⟩
      · rename_i hnl hne
        refine List.pairwise_cons.2 ⟨fun d hd => ?_, ih hm⟩
        rcases Memory.mem_insert hd with rfl | hd
        · show c.1 < a
          omega
        · exact hc d hd

/-- A write within the address space keeps the canonical form. -/
theorem Memory.write_wf {m : Memory} (h : m.wf) {a : Nat} (ha : a < 65536) (v : Word) : (m.write a v).wf := by
  unfold Memory.write
  split
  · exact ⟨h.1.filter _, fun c hc => h.2 c (List.mem_of_mem_filter hc)⟩
  · rename_i hv
    refine ⟨Memory.insert_rising h.1 a v, fun c hc => ?_⟩
    rcases Memory.mem_insert hc with rfl | hc
    · exact ⟨ha, hv⟩
    · exact h.2 c hc

theorem State.store_wf {s : State} (h : s.mem.wf) (a v : Word) : (s.store a v).mem.wf :=
  Memory.write_wf h a.isLt v

theorem State.poll_wf {s : State} (h : s.mem.wf) : s.poll.mem.wf := by
  unfold State.poll
  split
  · exact State.store_wf h _ _
  · split
    · exact State.store_wf (State.store_wf (s := s.setInput _) h _ _) _ _
    · exact State.store_wf (s := s.setInput _) h _ _

theorem State.afterRead_wf {s : State} (h : s.mem.wf) (a : Word) : (s.afterRead a).mem.wf := by
  unfold State.afterRead
  split
  · exact State.poll_wf h
  · exact h

/-- The image load keeps the canonical form. -/
theorem Memory.load_wf {m : Memory} (h : m.wf) (a : Nat) (ws : List Word) : (m.load a ws).wf := by
  induction ws generalizing m a with
  | nil => exact h
  | cons w ws ih =>
    unfold Memory.load
    split
    · rename_i ha; exact ih (Memory.write_wf h ha w) _
    · exact h

theorem State.reset_mem_wf : State.reset.mem.wf := ⟨List.Pairwise.nil, by simp [State.reset]⟩

/-! ### The keyboard registers -/

/-- What a poll does to each word of memory (20_memory.md R46). -/
theorem State.word_poll (s : State) (a : Word) :
    s.poll.word a =
      if a = kbsrAddr then (if s.inAvail then kbsrReady else kbsrIdle)
      else if a = kbdrAddr then (match s.input with
        | k :: _ => if s.inAvail then sext k.code else s.word a
        | [] => s.word a)
      else s.word a := by
  have hne : kbdrAddr ≠ kbsrAddr := by decide
  unfold State.poll State.inAvail
  cases s.input with
  | nil => simp [State.word_store]
  | cons k ks =>
    by_cases h : k.unseen = 0
    · by_cases h1 : a = kbsrAddr
      · subst h1; simp [h, State.word_store, hne.symm]
      · simp [h, State.word_store, h1]
    · simp [h, State.word_store]

theorem State.word_poll_of_ne (s : State) {a : Word} (h1 : a ≠ kbsrAddr) (h2 : a ≠ kbdrAddr) :
    s.poll.word a = s.word a := by simp [State.word_poll, h1, h2]

end Sys2Proof.Machine
end

