-- ==== Sys2Proof/Laws/Ops.lean ====
section
/-! SUPPORT. For each shared operation of Machine/Ops.lean and Machine/Trap.lean one lemma that says what it answers; the
laws of running statements in order. -/

namespace Sys2Proof.Machine

variable {α β : Type}

/-! ### Statements in order (R17) -/

theorem bind_of_ok {m : Exec α} {f : α → Exec β} {s t : State} {a : α} (h : m s = .ok a t) :
    (m >>= f) s = f a t := by
  show EStateM.bind m f s = _
  unfold EStateM.bind
  rw [h]

theorem bind_of_error {m : Exec α} {f : α → Exec β} {s t : State} {e : Stop} (h : m s = .error e t) :
    (m >>= f) s = .error e t := by
  show EStateM.bind m f s = _
  unfold EStateM.bind
  rw [h]

@[simp] theorem pure_apply (a : α) (s : State) : (pure a : Exec α) s = .ok a s := rfl

@[simp] theorem look_apply (f : State → α) (s : State) : look f s = .ok (f s) s := rfl

@[simp] theorem bind_look (f : State → α) (g : α → Exec β) (s : State) : (look f >>= g) s = g (f s) s := rfl

@[simp] theorem bind_pure_left (a : α) (g : α → Exec β) (s : State) : ((pure a : Exec α) >>= g) s = g a s := rfl

@[simp] theorem endState_ok (a : α) (s : State) : endState (.ok a s : Ended α) = s := rfl

@[simp] theorem endState_error (e : Stop) (s : State) :
    endState (.error e s : Ended α) = s := rfl

/-- A choice between statements, run in a state. -/
theorem ite_apply_state (c : Prop) [Decidable c] (m n : Exec α) (s : State) :
    (if c then m else n) s = if c then m s else n s := by
  split <;> rfl

theorem perform_of_ok {m : Exec Unit} {s t : State} {a : Unit} (h : m s = .ok a t) : perform m s = .next t := by
  simp [perform, h]

theorem perform_of_error {m : Exec Unit} {s t : State} {e : Stop} (h : m s = .error e t) :
    perform m s = .next t := by
  simp [perform, h]

/-- What a meaning answers is the state its statements end in. -/
theorem perform_eq_next {m : Exec Unit} {s t : State} : perform m s = .next t ↔ endState (m s) = t := by
  simp [perform]

/-! ### Primitive actions (R90) -/

/-- Cancellation takes effect before the action. -/
theorem primitive_struck (body : State → Ended α) {s : State} (h : s.cancel = some 0) :
    primitive body s = .error .cancelled s.enterCancelled := by
  simp [primitive, h]

/-- Cancellation does not take effect before the action. -/
theorem primitive_quiet (body : State → Ended α) {s : State} (h : s.quiet 1) : primitive body s = body (s.spend 1) := by
  have hs : s.spend 1 = { s with cancel := s.cancel.map (· - 1) } := rfl
  rw [hs]
  unfold primitive
  cases hc : s.cancel with
  | none => cases s; cases hc; rfl
  | some n =>
    cases n with
    | zero => exact absurd (h 0 hc) (by decide)
    | succ n => rfl

theorem act_quiet (f : State → State) {s : State} (h : s.quiet 1) : act f s = .ok () (f (s.spend 1)) :=
  primitive_quiet _ h

theorem setReg_quiet (r : Reg) (v : Word) {s : State} (h : s.quiet 1) :
    setReg r v s = .ok () ((s.spend 1).setReg r v) := act_quiet _ h

theorem setPc_quiet (v : Word) {s : State} (h : s.quiet 1) : setPc v s = .ok () ((s.spend 1).setPc v) := act_quiet _ h

theorem setCC_quiet (v : Word) {s : State} (h : s.quiet 1) :
    setCC v s = .ok () ((s.spend 1).setCond (condOf v)) := act_quiet _ h

theorem memWrite_quiet (a v : Word) {s : State} (h : s.quiet 1) :
    memWrite a v s = .ok () ((s.spend 1).store a v) := act_quiet _ h

theorem outByte_quiet (b : Byte) {s : State} (h : s.quiet 1) :
    outByte b s = .ok () ((s.spend 1).emit [b]) := act_quiet _ h

theorem halt_quiet {s : State} (h : s.quiet 1) : halt s = .ok () ((s.spend 1).setRun .halted) := act_quiet _ h

theorem memRead_quiet (a : Word) {s : State} (h : s.quiet 1) :
    memRead a s = .ok (s.readValue a) ((s.spend 1).afterRead a) := by
  rw [memRead, primitive_quiet _ h, State.readValue_spend]

theorem rawRead_quiet (a : Word) {s : State} (h : s.quiet 1) : rawRead a s = .ok (s.word a) (s.spend 1) :=
  primitive_quiet _ h

theorem raiseFault_quiet (kind : FaultKind) (info : Word) {s : State} (h : s.quiet 1) :
    raiseFault kind info s = .error .faulted ((s.spend 1).setRun (.faulted kind info)) := primitive_quiet _ h

theorem inRead_held (p : Service) {s : State} (h : s.quiet 1) (hi : s.input = []) :
    inRead p s = .error .held ((s.spend 1).setInflight (some p)) := by
  rw [inRead, primitive_quiet _ h]
  simp [hi]

theorem inRead_taken (p : Service) {s : State} (h : s.quiet 1) {k : Key} {ks : List Key} (hi : s.input = k :: ks) :
    inRead p s = .ok k.code ((s.spend 1).setInput ks) := by
  rw [inRead, primitive_quiet _ h]
  simp [hi]

theorem writeResult_quiet (dr : Reg) (v : Word) {s : State} (h : s.quiet 2) :
    writeResult dr v s = .ok () (((s.spend 2).setReg dr v).setCond (condOf v)) := by
  rw [writeResult, bind_of_ok (setReg_quiet dr v (State.quiet_mono h (by decide)))]
  rw [setCC_quiet v (by simpa using State.quiet_spend (j := 1) (k := 1) h)]
  simp

theorem saveReturn_quiet {s : State} (h : s.quiet 1) :
    saveReturn s = .ok () ((s.spend 1).setReg linkReg s.pc) := by
  rw [saveReturn, bind_look, setReg_quiet _ _ h]

theorem outBytes_quiet (bs : List Byte) {s : State} (h : s.quiet bs.length) :
    outBytes bs s = .ok () ((s.spend bs.length).emit bs) := by
  induction bs generalizing s with
  | nil => simp [outBytes]
  | cons b bs ih =>
    rw [outBytes, bind_of_ok (outByte_quiet b (State.quiet_mono h (by simp)))]
    have h' : (s.spend 1).quiet bs.length := State.quiet_spend (by simpa [Nat.add_comm] using h)
    rw [ih (by simpa using h')]
    simp [Nat.add_comm]

theorem takeChar_quiet (c : Byte) {s : State} (h : s.quiet 2) :
    takeChar c s = .ok () (((s.spend 2).setReg serviceReg (charToWord s.params.charExt c)).setCond
      (condOf (charToWord s.params.charExt c))) := by
  rw [takeChar, bind_look, writeResult_quiet _ _ h]

/-- The fetch (R82, R83): the Word at `pc`, the poll if `pc` is KBSR_ADDR, and `pc` one further. -/
theorem fetch_quiet {s : State} (h : s.quiet 2) :
    fetch s = .ok (s.readValue s.pc) (((s.spend 2).afterRead s.pc).setPc (s.pc + 1)) := by
  rw [fetch, bind_look, bind_of_ok (memRead_quiet _ (State.quiet_mono h (by decide)))]
  rw [bind_of_ok (setPc_quiet _ (by simpa using State.quiet_spend (j := 1) (k := 1) h))]
  simp

end Sys2Proof.Machine
end

