-- ==== Sys2Proof/Laws/Keeps.lean ====
section
/-! SUPPORT. How a relation between the states before and after is carried through the statements of an instruction, early
end or not: one lemma per shared operation, and `exec_keeps`, which says once, for all instructions, what an instruction
can do to a state. Frames and invariants are instances of it. -/

namespace Sys2Proof.Machine

variable {α β : Type} {R Q : State → State → Prop}

/-- The state in which the statements end is related to the one they start in: by `R` at the end of the rule, by `Q` if they
end early. -/
def Keeps (R Q : State → State → Prop) (m : Exec α) : Prop := ∀ s,
  match m s with
  | .ok _ t => R s t
  | .error _ t => Q s t

/-- What `R` and `Q` must satisfy to be carried through statements: `R` is reflexive and transitive and kept by counting off
a primitive action, `Q` may follow `R`, and entering CANCELLED is in `Q`. -/
structure Kept (R Q : State → State → Prop) : Prop where
  refl : ∀ s, R s s
  trans : ∀ s t u, R s t → R t u → R s u
  early : ∀ s t u, R s t → Q t u → Q s u
  spend : ∀ s, R s (s.spend 1)
  cancelled : ∀ s, s.cancel = some 0 → Q s s.enterCancelled

/-- A relation that stays true of a state's part `f`, which neither counting off an action nor entering CANCELLED changes. -/
theorem Kept.eq {γ : Type} (f : State → γ) (h1 : ∀ s, f (s.spend 1) = f s) (h2 : ∀ s : State, f s.enterCancelled = f s) :
    Kept (fun s t => f t = f s) (fun s t => f t = f s) :=
  ⟨fun _ => rfl, fun _ _ _ a b => b.trans a, fun _ _ _ a b => b.trans a, h1, fun s _ => h2 s⟩

theorem Keeps.pure (hR : Kept R Q) (a : α) : Keeps R Q (Pure.pure a : Exec α) := hR.refl

theorem Keeps.look (hR : Kept R Q) (f : State → α) : Keeps R Q (look f) := hR.refl

theorem Keeps.bind (hR : Kept R Q) {m : Exec α} {f : α → Exec β} (hm : Keeps R Q m) (hf : ∀ a, Keeps R Q (f a)) :
    Keeps R Q (m >>= f) := by
  intro s
  have h := hm s
  cases hc : m s with
  | ok a t =>
    rw [hc] at h
    have h' := hf a t
    rw [bind_of_ok hc]
    cases hd : f a t with
    | ok b u => rw [hd] at h'; exact hR.trans _ _ _ h h'
    | error e u => rw [hd] at h'; exact hR.early _ _ _ h h'
  | error e t =>
    rw [hc] at h
    rw [bind_of_error hc]
    exact h

theorem Keeps.primitive (hR : Kept R Q) {body : State → Ended α}
    (hb : ∀ s, match body s with
      | .ok _ t => R s t
      | .error _ t => Q s t) :
    Keeps R Q (primitive body) := by
  intro s
  rcases s.quiet_or_struck with h | h
  · rw [primitive_quiet _ h]
    have h' := hb (s.spend 1)
    cases hc : body (s.spend 1) with
    | ok a t => rw [hc] at h'; exact hR.trans _ _ _ (hR.spend s) h'
    | error e t => rw [hc] at h'; exact hR.early _ _ _ (hR.spend s) h'
  · rw [primitive_struck _ h]
    exact hR.cancelled s h

theorem Keeps.act (hR : Kept R Q) {f : State → State} (h : ∀ s, R s (f s)) : Keeps R Q (act f) := Keeps.primitive hR h

theorem Keeps.memRead (hR : Kept R Q) {a : Word} (h : ∀ s, R s (s.afterRead a)) : Keeps R Q (memRead a) :=
  Keeps.primitive hR h

theorem Keeps.rawRead (hR : Kept R Q) (a : Word) : Keeps R Q (rawRead a) := Keeps.primitive hR hR.refl

theorem Keeps.raiseFault (hR : Kept R Q) {kind : FaultKind} {info : Word}
    (h : ∀ s, Q s (s.setRun (.faulted kind info))) : Keeps R Q (raiseFault kind info) := Keeps.primitive hR h

theorem Keeps.inRead (hR : Kept R Q) {p : Service} (hhold : ∀ s, Q s (s.setInflight (some p)))
    (hin : ∀ s ks, R s (s.setInput ks)) : Keeps R Q (inRead p) := by
  refine Keeps.primitive hR fun s => ?_
  cases s.input with
  | nil => exact hhold s
  | cons k ks => exact hin s ks

theorem Keeps.outBytes (hR : Kept R Q) (hout : ∀ s bs, R s (s.emit bs)) (bs : List Byte) : Keeps R Q (outBytes bs) := by
  induction bs with
  | nil => exact Keeps.pure hR ()
  | cons b bs ih => exact Keeps.bind hR (Keeps.act hR fun s => hout s [b]) fun _ => ih

theorem Keeps.writeResult (hR : Kept R Q) {dr : Reg} {v : Word} (hreg : ∀ s v, R s (s.setReg dr v))
    (hcond : ∀ s c, R s (s.setCond c)) : Keeps R Q (writeResult dr v) :=
  Keeps.bind hR (Keeps.act hR fun s => hreg s v) fun _ => Keeps.act hR fun s => hcond s _

theorem Keeps.saveReturn (hR : Kept R Q) (hreg : ∀ s v, R s (s.setReg linkReg v)) : Keeps R Q saveReturn :=
  Keeps.bind hR (Keeps.look hR _) fun _ => Keeps.act hR fun s => hreg s _

theorem Keeps.takeChar (hR : Kept R Q) {c : Byte} (hreg : ∀ s v, R s (s.setReg serviceReg v))
    (hcond : ∀ s c, R s (s.setCond c)) : Keeps R Q (takeChar c) :=
  Keeps.bind hR (Keeps.look hR _) fun _ => Keeps.writeResult hR hreg hcond

theorem Keeps.stringLoop (hR : Kept R Q) {bytes : Word → List Byte} {again : Word → Service}
    (hout : ∀ s bs, R s (s.emit bs)) (hhold : ∀ s a, Q s (s.setInflight (some (again a)))) (n : Nat) (a : Word) :
    Keeps R Q (stringLoop bytes again n a) := by
  induction n generalizing a with
  | zero => exact fun s => hhold s a
  | succ n ih =>
    refine Keeps.bind hR (Keeps.rawRead hR a) fun w => ?_
    split
    · exact Keeps.pure hR ()
    · exact Keeps.bind hR (Keeps.outBytes hR hout _) fun _ => ih _

theorem Keeps.fetch (hR : Kept R Q) (hread : ∀ s a, R s (s.afterRead a)) (hpc : ∀ s v, R s (s.setPc v)) :
    Keeps R Q fetch :=
  Keeps.bind hR (Keeps.look hR _) fun _ => Keeps.bind hR (Keeps.memRead hR fun s => hread s _) fun _ =>
    Keeps.bind hR (Keeps.act hR fun s => hpc s _) fun _ => Keeps.pure hR _

/-- Relations kept by a meaning's statements hold of the next state the meaning answers. -/
theorem Keeps.next {m : Exec Unit} (h : Keeps R Q m) {s t : State} (he : perform m s = .next t) : R s t ∨ Q s t := by
  have h' := h s
  rw [← perform_eq_next.1 he]
  cases hm : m s with
  | ok a u => rw [hm] at h'; exact .inl h'
  | error e u => rw [hm] at h'; exact .inr h'

end Sys2Proof.Machine

namespace Sys2Proof

/-- The instructions that read memory with MemRead (20_memory.md R49). -/
def Instr.readsMemory : Instr → Bool
  | .ld _ _ | .ldi _ _ | .ldr _ _ _ | .sti _ _ => true
  | _ => false

/-- The instructions that store to memory (20_memory.md R49). -/
def Instr.storesMemory : Instr → Bool
  | .st _ _ | .sti _ _ | .str _ _ _ => true
  | _ => false

/-- The services that read the input port (10_state.md R28). -/
def Instr.takesInput : Instr → Bool
  | .trapGetc | .trapIn => true
  | _ => false

/-- The services that may be left in flight, as what (40_execution_cycle.md R91, 44_trap.md R122). -/
def Instr.mayHold : Instr → Machine.Service → Prop
  | .trapGetc, p => p = .getc
  | .trapIn, p => p = .inn
  | .trapPuts, p => ∃ a, p = .puts a
  | .trapPutsp, p => ∃ a, p = .putsp a
  | _, _ => False

/-- The faults an instruction may raise (60_exceptions.md R135). -/
def Instr.mayFault : Instr → Machine.FaultKind → Word → Prop
  | .trapOther ign vec, k, w => k = .unknownTrap ∧ w = encode (.trapOther ign vec)
  | .rti ign, k, w => k = .reservedOpcode ∧ w = encode (.rti ign)
  | .res ign, k, w => k = .reservedOpcode ∧ w = encode (.res ign)
  | _, _, _ => False

end Sys2Proof

namespace Sys2Proof.Machine

variable {R Q : State → State → Prop}

/-- What an instruction can do: write its registers, the flag if it is a flag writer, `pc` if it is a control transfer, read
and store memory, emit, take input, be held, enter its own run states, and nothing else. A relation that all of these keep
holds between the state before and the next state of `exec`. -/
theorem exec_keeps (hR : Kept R Q) {i : Instr}
    (hreg : ∀ r ∈ writtenRegs i, ∀ s v, R s (s.setReg r v))
    (hcond : writesCond i = true → ∀ s c, R s (s.setCond c))
    (hpc : i.isControlTransfer = true → ∀ s v, R s (s.setPc v))
    (hread : i.readsMemory = true → ∀ s a, R s (s.afterRead a))
    (hstore : i.storesMemory = true → ∀ s a v, R s (s.store a v))
    (hout : i.emitsOutput = true → ∀ s bs, R s (s.emit bs))
    (hinput : i.takesInput = true → ∀ s ks, R s (s.setInput ks))
    (hhold : ∀ p, i.mayHold p → ∀ s, Q s (s.setInflight (some p)))
    (hhalt : i = .trapHalt → ∀ s, R s (s.setRun .halted))
    (hfault : ∀ kind info, i.mayFault kind info → ∀ s, Q s (s.setRun (.faulted kind info)))
    {s t : State} (h : exec i s = .next t) : R s t ∨ Q s t := by
  have result {dr : Reg} {v : Word} (h1 : dr ∈ writtenRegs i) (h2 : writesCond i = true) : Keeps R Q (writeResult dr v) :=
    Keeps.writeResult hR (hreg dr h1) (hcond h2)
  have save (h1 : linkReg ∈ writtenRegs i) : Keeps R Q saveReturn := Keeps.saveReturn hR (hreg _ h1)
  have jump {v : Word} (h1 : i.isControlTransfer = true) : Keeps R Q (setPc v) := Keeps.act hR fun s => hpc h1 s v
  have read {a : Word} (h1 : i.readsMemory = true) : Keeps R Q (memRead a) := Keeps.memRead hR fun s => hread h1 s a
  have write {a v : Word} (h1 : i.storesMemory = true) : Keeps R Q (memWrite a v) :=
    Keeps.act hR fun s => hstore h1 s a v
  have fault {k : FaultKind} {w : Word} (h1 : i.mayFault k w) : Keeps R Q (raiseFault k w) :=
    Keeps.raiseFault hR (hfault _ _ h1)
  cases i with
  | addReg dr a b =>
    exact Keeps.next (Keeps.bind hR (Keeps.look hR _) fun _ => Keeps.bind hR (Keeps.look hR _) fun _ =>
      result (by simp [writtenRegs]) rfl) h
  | addImm dr a b =>
    exact Keeps.next (Keeps.bind hR (Keeps.look hR _) fun _ => result (by simp [writtenRegs]) rfl) h
  | andReg dr a b =>
    exact Keeps.next (Keeps.bind hR (Keeps.look hR _) fun _ => Keeps.bind hR (Keeps.look hR _) fun _ =>
      result (by simp [writtenRegs]) rfl) h
  | andImm dr a b =>
    exact Keeps.next (Keeps.bind hR (Keeps.look hR _) fun _ => result (by simp [writtenRegs]) rfl) h
  | not dr a =>
    exact Keeps.next (Keeps.bind hR (Keeps.look hR _) fun _ => result (by simp [writtenRegs]) rfl) h
  | br nzp off =>
    refine Keeps.next (Keeps.bind hR (Keeps.look hR _) fun c => ?_) h
    split
    · exact Keeps.bind hR (Keeps.look hR _) fun _ => jump rfl
    · exact Keeps.pure hR ()
  | jmp b => exact Keeps.next (Keeps.bind hR (Keeps.look hR _) fun _ => jump rfl) h
  | jsr off =>
    exact Keeps.next (Keeps.bind hR (save (by simp [writtenRegs])) fun _ => Keeps.bind hR (Keeps.look hR _) fun _ =>
      jump rfl) h
  | jsrr b =>
    exact Keeps.next (Keeps.bind hR (save (by simp [writtenRegs])) fun _ => Keeps.bind hR (Keeps.look hR _) fun _ =>
      jump rfl) h
  | ld dr off =>
    exact Keeps.next (Keeps.bind hR (Keeps.look hR _) fun _ => Keeps.bind hR (read rfl) fun _ =>
      result (by simp [writtenRegs]) rfl) h
  | ldi dr off =>
    exact Keeps.next (Keeps.bind hR (Keeps.look hR _) fun _ => Keeps.bind hR (read rfl) fun _ =>
      Keeps.bind hR (read rfl) fun _ => result (by simp [writtenRegs]) rfl) h
  | ldr dr b off =>
    exact Keeps.next (Keeps.bind hR (Keeps.look hR _) fun _ => Keeps.bind hR (read rfl) fun _ =>
      result (by simp [writtenRegs]) rfl) h
  | lea dr off =>
    exact Keeps.next (Keeps.bind hR (Keeps.look hR _) fun _ => result (by simp [writtenRegs]) rfl) h
  | st sr off =>
    exact Keeps.next (Keeps.bind hR (Keeps.look hR _) fun _ => Keeps.bind hR (Keeps.look hR _) fun _ => write rfl) h
  | sti sr off =>
    exact Keeps.next (Keeps.bind hR (Keeps.look hR _) fun _ => Keeps.bind hR (read rfl) fun _ =>
      Keeps.bind hR (Keeps.look hR _) fun _ => write rfl) h
  | str sr b off =>
    exact Keeps.next (Keeps.bind hR (Keeps.look hR _) fun _ => Keeps.bind hR (Keeps.look hR _) fun _ => write rfl) h
  | trapGetc =>
    exact Keeps.next (Keeps.bind hR (save (by simp [writtenRegs])) fun _ =>
      Keeps.bind hR (Keeps.inRead hR (hhold _ rfl) (hinput rfl)) fun _ =>
        Keeps.takeChar hR (hreg _ (by simp [writtenRegs])) (hcond rfl)) h
  | trapOut =>
    exact Keeps.next (Keeps.bind hR (save (by simp [writtenRegs])) fun _ => Keeps.bind hR (Keeps.look hR _) fun _ =>
      Keeps.act hR fun s => hout rfl s _) h
  | trapPuts =>
    exact Keeps.next (Keeps.bind hR (save (by simp [writtenRegs])) fun _ => Keeps.bind hR (Keeps.look hR _) fun _ =>
      Keeps.stringLoop hR (hout rfl) (fun s a => hhold _ ⟨a, rfl⟩ s) _ _) h
  | trapIn =>
    exact Keeps.next (Keeps.bind hR (save (by simp [writtenRegs])) fun _ => Keeps.bind hR (Keeps.look hR _) fun _ =>
      Keeps.bind hR (Keeps.outBytes hR (hout rfl) _) fun _ =>
        Keeps.bind hR (Keeps.inRead hR (hhold _ rfl) (hinput rfl)) fun _ =>
          Keeps.bind hR (Keeps.act hR fun s => hout rfl s _) fun _ =>
            Keeps.takeChar hR (hreg _ (by simp [writtenRegs])) (hcond rfl)) h
  | trapPutsp =>
    exact Keeps.next (Keeps.bind hR (save (by simp [writtenRegs])) fun _ => Keeps.bind hR (Keeps.look hR _) fun _ =>
      Keeps.stringLoop hR (hout rfl) (fun s a => hhold _ ⟨a, rfl⟩ s) _ _) h
  | trapHalt =>
    exact Keeps.next (Keeps.bind hR (save (by simp [writtenRegs])) fun _ => Keeps.bind hR (Keeps.look hR _) fun _ =>
      Keeps.bind hR (Keeps.outBytes hR (hout rfl) _) fun _ => Keeps.act hR fun s => hhalt rfl s) h
  | trapOther ign vec =>
    refine Keeps.next (Keeps.bind hR (save (by simp [writtenRegs])) fun _ => Keeps.bind hR (Keeps.look hR _)
      fun p => ?_) h
    cases p with
    | fault => exact fault ⟨rfl, rfl⟩
    | noop => exact Keeps.pure hR ()
  | rti ign => exact Keeps.next (fault ⟨rfl, rfl⟩) h
  | res ign => exact Keeps.next (fault ⟨rfl, rfl⟩) h

end Sys2Proof.Machine
end

