-- ==== Sys2Proof/Laws/Run.lean ====
section
/-! SUPPORT. Runs of several steps (Host/Core.lean): one step at a time, and what every step keeps along a run. -/

namespace Sys2Proof.Machine

/-- A run of k + 1 steps that answers a next state is a step and a run of k steps. -/
theorem Run.next_iff {M : Host.Core} {k : Nat} {s t : M.State} :
    M.run (k + 1) s = .next t ↔ ∃ u, M.step s = .next u ∧ M.run k u = .next t := by
  rw [Host.Core.run]
  split <;> simp_all

/-- A run of the block goes on with the run from the state its first step answers. -/
theorem Run.of_step {s t : State} (h : step s = .next t) (k : Nat) : core.run (k + 1) s = core.run k t := by
  have general (M : Host.Core) (s t : M.State) (h : M.step s = .next t) : M.run (k + 1) s = M.run k t := by
    rw [Host.Core.run, h]
  exact general core s t h

/-- What holds between a state and itself, and is kept by one more step, holds along every run. -/
theorem Run.keeps {R : State → State → Prop} (refl : ∀ s, R s s) (trans : ∀ {s t u}, R s t → R t u → R s u)
    (keeps : ∀ {s t}, step s = .next t → R s t) : ∀ {k : Nat} {s t : State}, core.run k s = .next t → R s t
  | 0, _, _, h => by cases h; exact refl _
  | _ + 1, _, _, h => by
    obtain ⟨_, h1, h2⟩ := Run.next_iff.1 h
    exact trans (keeps h1) (Run.keeps refl trans keeps h2)

end Sys2Proof.Machine
end

