-- ==== Sys2Proof/Laws/Strings.lean ====
section
/-! SUPPORT. The loop of PUTS and PUTSP (44_trap.md R121, R122, R125): what it answers when the string ends, and when no
zero word is found. -/

namespace Sys2Proof.Machine

variable {bytes : Word → List Byte} {again : Word → Service}

/-- The bytes of one Word in PUTSP: the low byte, and after it the high byte if it is not zero. -/
theorem packedBytes_eq (w : Word) :
    packedBytes w = lowByte w :: (if highByte w = 0x00 then [] else [highByte w]) := by
  unfold packedBytes
  by_cases h : highByte w = 0x00#8 <;> simp [h]

/-- The words `ws` stand in memory from address `a`, none of them zero, and a zero word follows them. -/
def State.holdsString (s : State) (a : Word) (ws : List Word) : Prop :=
  (∀ (i : Nat) (w : Word), ws[i]? = some w → s.word (a + BitVec.ofNat 16 i) = w ∧ w ≠ 0x0000) ∧
    s.word (a + BitVec.ofNat 16 ws.length) = 0x0000

theorem State.holdsString_cons {s : State} {a w : Word} {ws : List Word} (h : s.holdsString a (w :: ws)) :
    s.word a = w ∧ w ≠ 0x0000 ∧ s.holdsString (a + 1) ws := by
  have shift (i : Nat) : a + BitVec.ofNat 16 (i + 1) = a + 1 + BitVec.ofNat 16 i := by
    rw [BitVec.ofNat_add, BitVec.add_comm (BitVec.ofNat 16 i), BitVec.add_assoc]; rfl
  have h0 := h.1 0 w rfl
  refine ⟨by simpa using h0.1, h0.2, fun i v hv => ?_, ?_⟩
  · rw [← shift]
    exact h.1 (i + 1) v hv
  · rw [← shift]
    exact h.2

/-- A string with an end is shorter than the memory it lies in. -/
theorem State.holdsString_length {s : State} {a : Word} {ws : List Word} (h : s.holdsString a ws) :
    ws.length < 65536 := by
  by_contra hn
  have hi : ws.length - 65536 < ws.length := by omega
  obtain ⟨h1, h2⟩ := h.1 _ _ (List.getElem?_eq_getElem hi)
  have he : BitVec.ofNat 16 (ws.length - 65536) = BitVec.ofNat 16 ws.length := by
    apply BitVec.eq_of_toNat_eq
    simp
    omega
  rw [he, h.2] at h1
  exact h2 h1.symm

/-- The loop over a string that ends within `n` words emits the bytes of each word. -/
theorem stringLoop_of_string {ws : List Word} : ∀ {n : Nat} {a : Word} {s : State}, ws.length < n →
    s.holdsString a ws → s.quiet ((ws.flatMap bytes).length + ws.length + 1) →
    stringLoop bytes again n a s =
      .ok () ((s.spend ((ws.flatMap bytes).length + ws.length + 1)).emit (ws.flatMap bytes)) := by
  induction ws with
  | nil =>
    intro n a s hn h q
    obtain ⟨n, rfl⟩ : ∃ m, n = m + 1 := ⟨n - 1, by simp at hn; omega⟩
    have h0 : s.word a = 0x0000 := by simpa using h.2
    rw [stringLoop, bind_of_ok (rawRead_quiet a (State.quiet_mono q (by simp)))]
    simp [h0]
  | cons w ws ih =>
    intro n a s hn h q
    obtain ⟨n, rfl⟩ : ∃ m, n = m + 1 := ⟨n - 1, by simp at hn; omega⟩
    obtain ⟨h0, hw, hs⟩ := State.holdsString_cons h
    have hw' : ¬ w = 0x0000 := hw
    simp only [List.flatMap_cons, List.length_append, List.length_cons] at q
    have q1 : (s.spend 1).quiet ((bytes w).length + ((ws.flatMap bytes).length + ws.length + 1)) :=
      State.quiet_spend (State.quiet_mono q (by omega))
    rw [stringLoop, bind_of_ok (rawRead_quiet a (State.quiet_mono q (by omega))), h0, if_neg hw',
      bind_of_ok (outBytes_quiet _ (State.quiet_mono q1 (by omega))),
      ih (by simp at hn; omega) (by simpa [State.holdsString] using hs) (by simpa using State.quiet_spend q1)]
    simp only [State.spend_emit_comm, State.spend_spend, State.emit_emit, List.flatMap_cons, List.length_append,
      List.length_cons]
    rw [show 1 + (bytes w).length + ((ws.flatMap bytes).length + ws.length + 1) =
      (bytes w).length + (ws.flatMap bytes).length + (ws.length + 1) + 1 by omega]

/-- Where some word is zero, a string begins at every address. -/
theorem State.exists_string {s : State} {b : Word} (hb : s.word b = 0x0000) (a : Word) : ∃ ws, s.holdsString a ws := by
  have hex : ∃ i : Nat, s.word (a + BitVec.ofNat 16 i) = 0x0000 := by
    refine ⟨(b - a).toNat, ?_⟩
    rw [BitVec.ofNat_toNat, BitVec.setWidth_eq, BitVec.add_comm, BitVec.sub_add_cancel, hb]
  classical
  refine ⟨(List.range (Nat.find hex)).map fun i => s.word (a + BitVec.ofNat 16 i), fun i w h => ?_, ?_⟩
  · simp only [List.getElem?_map, Option.map_eq_some_iff, List.getElem?_eq_some_iff, List.length_range,
      List.getElem_range] at h
    obtain ⟨_, ⟨hi, rfl⟩, rfl⟩ := h
    exact ⟨rfl, Nat.find_min hex hi⟩
  · simpa using Nat.find_spec hex

/-- Where some word is zero and no cancellation is raised, the loop over all of memory ends, having only emitted bytes. -/
theorem stringLoop_of_zero {s : State} {b : Word} (hb : s.word b = 0x0000) (hc : s.cancel = none) (a : Word) :
    ∃ bs, stringLoop bytes again stringReads a s = .ok () (s.emit bs) := by
  obtain ⟨ws, h⟩ := State.exists_string hb a
  refine ⟨ws.flatMap bytes, ?_⟩
  rw [stringLoop_of_string (n := stringReads) (State.holdsString_length h) h (State.quiet_of_none _ hc _),
    State.spend_of_none hc]

/-- The loop over `n` words none of which is zero stays in flight at the address it has reached, having emitted the bytes of
every word. -/
theorem stringLoop_of_no_zero : ∀ {n : Nat} {a : Word} {s : State}, (∀ b, s.word b ≠ 0x0000) → s.cancel = none →
    stringLoop bytes again n a s = .error .held
      ((s.emit ((List.range n).flatMap fun i => bytes (s.word (a + BitVec.ofNat 16 i)))).setInflight
        (some (again (a + BitVec.ofNat 16 n)))) := by
  intro n
  induction n with
  | zero => intro a s _ _; simp [stringLoop]
  | succ n ih =>
    intro a s h hc
    have shift (i : Nat) : a + 1 + BitVec.ofNat 16 i = a + BitVec.ofNat 16 (i + 1) := by
      rw [BitVec.ofNat_add, BitVec.add_comm (BitVec.ofNat 16 i), BitVec.add_assoc]; rfl
    have ha : ¬ s.word a = 0x0000 := h a
    rw [stringLoop, bind_of_ok (rawRead_quiet a (State.quiet_of_none _ hc _)), if_neg ha,
      State.spend_of_none hc, bind_of_ok (outBytes_quiet _ (State.quiet_of_none _ hc _)), State.spend_of_none hc,
      ih (by simpa using h) (by simpa using hc)]
    simp only [State.emit_emit, State.word_emit, shift, List.range_succ_eq_map, List.flatMap_cons, List.flatMap_map]
    simp

/-- The loop over all of memory, none of it zero, comes back to the address it began at. -/
theorem stringLoop_hang {s : State} (h : ∀ b, s.word b ≠ 0x0000) (hc : s.cancel = none) (a : Word) :
    stringLoop bytes again stringReads a s = .error .held
      ((s.emit ((List.range 65536).flatMap fun i => bytes (s.word (a + BitVec.ofNat 16 i)))).setInflight
        (some (again a))) := by
  rw [stringReads, stringLoop_of_no_zero h hc, show BitVec.ofNat 16 65536 = 0#16 by decide, BitVec.add_zero]

end Sys2Proof.Machine
end

