-- ==== Sys2Proof/Tests/Slice0.lean ====
section
/-! SUPPORT. Tests of the model. Expected words and results are those of 95_test_vectors.md and of the examples in the
instruction rules; vector names stand in the comments. Then, for each statement with hypotheses, a witness. -/

namespace Sys2Proof.Tests

open Sys2Proof Sys2Proof.Machine

/-! ### Well-formedness: the one check, refused and admitted -/

theorem test_wellFormed_refuses_service_vector : (Instr.trapOther 0 0x25).wellFormed = false := by decide
theorem test_wellFormed_admits_other_vector : (Instr.trapOther 0 0x26).wellFormed = true := by decide

/-! ### Decoding, one word written out for every constructor -/

-- 0001 011 001 0 00 010
theorem test_decode_addReg : decode 0b0001011001000010 = some (.addReg 3 1 2) := by decide
-- 0001 010 001 1 11100 (VA1)
theorem test_decode_addImm : decode 0b0001010001111100 = some (.addImm 2 1 0b11100) := by decide
-- 0101 011 001 0 11 010, ignored bits set (VA13)
theorem test_decode_andReg : decode 0b0101011001011010 = some (.andReg 3 1 2) := by decide
-- 0101 011 001 1 10000 (VA11)
theorem test_decode_andImm : decode 0b0101011001110000 = some (.andImm 3 1 0b10000) := by decide
-- 1001 010 001 000000, ignored bits clear (VA18)
theorem test_decode_not : decode 0b1001010001000000 = some (.not 2 1) := by decide
-- 0000 010 000000101 (VB1)
theorem test_decode_br : decode 0b0000010000000101 = some (.br 0b010 0b000000101) := by decide
-- 1100 111 010 111111, ignored bits set (VB10)
theorem test_decode_jmp : decode 0b1100111010111111 = some (.jmp 2) := by decide
-- 0100 1 10000000000 (VB12)
theorem test_decode_jsr : decode 0b0100110000000000 = some (.jsr 0b10000000000) := by decide
-- 0100 0 00 011 000000 (VB14)
theorem test_decode_jsrr : decode 0b0100000011000000 = some (.jsrr 3) := by decide
-- 0010 001 000000010 (VC1)
theorem test_decode_ld : decode 0b0010001000000010 = some (.ld 1 0b000000010) := by decide
-- 1010 010 000000001 (VC4)
theorem test_decode_ldi : decode 0b1010010000000001 = some (.ldi 2 0b000000001) := by decide
-- 0110 011 100 111111 (VC5)
theorem test_decode_ldr : decode 0b0110011100111111 = some (.ldr 3 4 0b111111) := by decide
-- 1110 000 111111101 (VC7)
theorem test_decode_lea : decode 0b1110000111111101 = some (.lea 0 0b111111101) := by decide
-- 0011 001 000000100 (VC10)
theorem test_decode_st : decode 0b0011001000000100 = some (.st 1 0b000000100) := by decide
-- 1011 010 000000000 (VC12)
theorem test_decode_sti : decode 0b1011010000000000 = some (.sti 2 0b000000000) := by decide
-- 0111 001 010 011111 (VC13)
theorem test_decode_str : decode 0b0111001010011111 = some (.str 1 2 0b011111) := by decide
-- R75
theorem test_decode_traps :
    decode 0xF020 = some .trapGetc ∧ decode 0xF021 = some .trapOut ∧ decode 0xF022 = some .trapPuts ∧
    decode 0xF023 = some .trapIn ∧ decode 0xF024 = some .trapPutsp ∧ decode 0xF025 = some .trapHalt := by decide
-- VT14: bits 11:8 ignored
theorem test_decode_trap_ignores_bits : decode 0xFF25 = some .trapHalt := by decide
-- 1111 1010 00011111
theorem test_decode_trapOther : decode 0b1111101000011111 = some (.trapOther 0b1010 0x1F) := by decide
-- VX2
theorem test_decode_rti : decode 0x8FFF = some (.rti 0xFFF) := by decide
-- R131 example
theorem test_decode_res : decode 0xD123 = some (.res 0x123) := by decide

/-! ### The table's rows, through the host's two entry points, at operands zero -/

theorem test_table_rows : [0x1000, 0x1020, 0x5000, 0x5020, 0x9000, 0x0000, 0xC000, 0x4800, 0x4000, 0x2000, 0xA000, 0x6000,
    0xE000, 0x3000, 0xB000, 0x7000, 0xF020, 0xF021, 0xF022, 0xF023, 0xF024, 0xF025, 0xF000, 0x8000, 0xD000].map
      (decodeTableWord 16) =
    [.addReg 0 0 0, .addImm 0 0 0, .andReg 0 0 0, .andImm 0 0 0, .not 0 0, .br 0 0, .jmp 0, .jsr 0, .jsrr 0, .ld 0 0,
      .ldi 0 0, .ldr 0 0 0, .lea 0 0, .st 0 0, .sti 0 0, .str 0 0 0, .trapGetc, .trapOut, .trapPuts, .trapIn, .trapPutsp,
      .trapHalt, .trapOther 0 0, .rti 0, .res 0].map some := by decide

/-- The fetch of a placed word runs it as the first instruction after reset. -/
theorem test_withFetchWord_runs (w : Nat) (i : Instr) (h : decode (BitVec.ofNat 16 (w % 2 ^ 16)) = some i) :
    step (State.reset.withFetchWord 16 w) = exec i { State.reset.withFetchWord 16 w with pc := 0x3001 } := by
  have hv : (State.reset.withFetchWord 16 w).readValue 0x3000 = BitVec.ofNat 16 (w % 2 ^ 16) :=
    State.word_store_self State.reset 0x3000 (BitVec.ofNat 16 (w % 2 ^ 16))
  have hf : fetch (State.reset.withFetchWord 16 w) =
      .ok ((State.reset.withFetchWord 16 w).readValue 0x3000)
        { State.reset.withFetchWord 16 w with pc := 0x3001 } := rfl
  show (match fetch (State.reset.withFetchWord 16 w) with
    | .ok w t => runWord w t
    | .error _ t => .next t) = _
  rw [hf, hv]
  show (match decode (BitVec.ofNat 16 (w % 2 ^ 16)) with
    | some i => exec i _
    | none => unknownOpcode _ _) = _
  rw [h]

/-! ### One step on a small state -/

/-- Reset, with known open parameters: prompt "?", halt notice "H", cancel notice "C". -/
def start : State := { State.reset with params := ⟨[0x3F], [0x48], [0x43], .zext, .fault⟩ }

/-- One step on `s` with the instruction word at its `pc`, seen through `f`. -/
def stepView {α : Type} (s : State) (w : Word) (f : State → α) : Option α :=
  match step (s.store s.pc w) with
  | .next t => some (f t)
  | .fault _ => none
  | .refused _ => none

/-- A register and the flag. -/
def regAndFlag (r : Reg) (s : State) : Word × Cond := (s.reg r, s.cond)

-- VA2: signed overflow wraps
theorem test_add_overflow :
    stepView ((start.setReg 1 0x7FFF).setReg 2 1) 0x1642 (regAndFlag 3) = some (0x8000, .negative) := by decide
-- VA7: the same register three times
theorem test_add_same_register : stepView (start.setReg 1 5) 0x1241 (regAndFlag 1) = some (0x000A, .positive) := by decide
-- VA3: carry dropped
theorem test_addImm_carry : stepView (start.setReg 1 0xFFFF) 0x1261 (regAndFlag 1) = some (0x0000, .zero) := by decide
-- VA1: negative immediate
theorem test_addImm_negative : stepView (start.setReg 1 3) 0x147C (regAndFlag 2) = some (0xFFFF, .negative) := by decide
-- VA12
theorem test_and : stepView ((start.setReg 1 0x0F0F).setReg 2 0x00FF) 0x5642 (regAndFlag 3) = some (0x000F, .positive) := by
  decide
-- VA11
theorem test_andImm : stepView (start.setReg 1 0x1237) 0x5670 (regAndFlag 3) = some (0x1230, .positive) := by decide
-- VA17
theorem test_not : stepView (start.setReg 1 0x8000) 0x947F (regAndFlag 2) = some (0x7FFF, .positive) := by decide
-- VB1, VB2
theorem test_br : stepView start 0x0405 (·.pc) = some 0x3006 ∧
    stepView (start.setCond .positive) 0x0405 (·.pc) = some 0x3001 := by decide
-- VB6: fetch at 0xFFFF wraps
theorem test_br_wraps : stepView (start.setPc 0xFFFF) 0x0E01 (·.pc) = some 0x0001 := by decide
-- VB8
theorem test_jmp : stepView (start.setReg 2 0x4000) 0xC080 (·.pc) = some 0x4000 := by decide
-- VB12
theorem test_jsr : stepView start 0x4C00 (fun s => (s.reg 7, s.pc)) = some (0x3001, 0x2C01) := by decide
-- VB14, VB15
theorem test_jsrr : stepView (start.setReg 3 0x5000) 0x40C0 (fun s => (s.reg 7, s.pc)) = some (0x3001, 0x5000) ∧
    stepView (start.setReg 7 0x1234) 0x41C0 (fun s => (s.reg 7, s.pc)) = some (0x3001, 0x3001) := by decide
-- VC1, VC3
theorem test_ld : stepView (start.store 0x3003 0x8000) 0x2202 (regAndFlag 1) = some (0x8000, .negative) ∧
    stepView ((start.setPc 0xFFF0).store 0x0010 7) 0x201F (regAndFlag 0) = some (0x0007, .positive) := by decide
-- L1-8
theorem test_ldi : stepView ((start.store 0x3002 0x4000).store 0x4000 0xBEEF) 0xA401 (regAndFlag 2) =
    some (0xBEEF, .negative) := by decide
-- VC6: the base register is the destination
theorem test_ldr : stepView ((start.setReg 1 0x4000).store 0x4000 0x9000) 0x6240 (regAndFlag 1) =
    some (0x9000, .negative) := by decide
-- VK1, VK3: a poll latches, sign-extended
theorem test_ldr_polls : stepView ((start.setReg 0 0xFE00).hostKey 0xE9) 0x6200
    (fun s => (s.word 0xFE00, s.word 0xFE02, s.reg 1, s.input)) = some (0x8000, 0xFFE9, 0x8000, []) := by decide
-- VC8, VC9: LEA sets the flag and does not poll
theorem test_lea : stepView ((start.setPc 0xFDFF).hostKey 0x61) 0xE000 (fun s => (s.reg 0, s.cond, s.input.length)) =
    some (0xFE00, .negative, 1) := by decide
-- VC11: ST over itself
theorem test_st : stepView (start.setReg 1 0x1111) 0x33FF (·.word 0x3000) = some 0x1111 := by decide
-- VC12
theorem test_sti : stepView ((start.store 0x3001 0x5000).setReg 2 0x1234) 0xB400 (·.word 0x5000) = some 0x1234 := by decide
-- VC13: the address wraps
theorem test_str : stepView ((start.setReg 2 0xFFF0).setReg 1 7) 0x729F (·.word 0x000F) = some 0x0007 := by decide
-- VT5 (zext) and VT6 (held)
theorem test_getc : stepView (start.hostKey 0xC3) 0xF020 (fun s => (s.reg 0, s.cond, s.reg 7)) =
    some (0x00C3, .positive, 0x3001) := by decide
theorem test_getc_held : stepView start 0xF020 (fun s => (s.reg 0, s.inflight, s.run)) =
    some (0x0000, some .getc, .running) := by decide
-- VT1
theorem test_out : stepView (start.setReg 0 0x0141) 0xF021 (·.out) = some [0x41] := by decide
-- VT10: the read wraps
theorem test_puts : stepView (((start.setReg 0 0xFFFF).store 0xFFFF 0x0141).store 0x0000 0x0042) 0xF022 (·.out) =
    some [0x41, 0x42] := by decide
-- VT7
theorem test_in : stepView (start.hostKey 0x6B) 0xF023 (fun s => (s.out, s.reg 0, s.cond)) =
    some ([0x3F, 0x6B], 0x006B, .positive) := by decide
-- VT11, VT12
theorem test_putsp :
    stepView (((start.setReg 0 0x4000).store 0x4000 0x6548).store 0x4001 0x006F) 0xF024 (·.out) = some [0x48, 0x65, 0x6F] ∧
    stepView ((start.setReg 0 0x4000).store 0x4000 0x4100) 0xF024 (·.out) = some [0x00, 0x41] := by decide
-- VT14
theorem test_halt : stepView start 0xFF25 (fun s => (s.out, s.run, s.reg 7, s.pc)) =
    some ([0x48], .halted, 0x3001, 0x3001) := by decide
-- VT15
theorem test_unknown_trap : stepView (start.setReg 7 0x1234) 0xF026 (fun s => (s.reg 7, s.run)) =
    some (0x3001, .faulted .unknownTrap 0xF026) := by decide
-- VX1, VX3
theorem test_reserved : stepView start 0x8000 (fun s => (s.run, s.pc)) = some (.faulted .reservedOpcode 0x8000, 0x3001) ∧
    stepView start 0xD000 (fun s => (s.run, s.pc)) = some (.faulted .reservedOpcode 0xD000, 0x3001) := by decide
-- VK8: the fetch from KBSR polls and runs what it latched
theorem test_fetch_polls : stepView ((start.setPc 0xFE00).hostKey 0x78) 0x0000 (fun s => (s.run, s.word 0xFE02)) =
    some (.faulted .reservedOpcode 0x8000, 0x0078) := by decide
-- VE1
theorem test_no_step_after_halt : step (start.setRun .halted) = .fault .notRunning := rfl
-- VE2: cancelled after the first byte of "AB" (fetch 2, R7 1, read 1, byte 1)
theorem test_cancel_in_puts :
    stepView ((((start.setReg 0 0x4000).store 0x4000 0x41).store 0x4001 0x42).hostCancel 5) 0xF022
      (fun s => (s.run, s.out, s.reg 7)) = some (.cancelled, [0x41, 0x43], 0x3001) := by decide
-- L1-1, R152: the file's bytes
theorem test_boot : fileWords [0x30, 0x00, 0x50, 0x20, 0x10, 0x25, 0xF0, 0x25] = [0x3000, 0x5020, 0x1025, 0xF025] := by
  decide

/-! ### Witnesses: states and operands that meet the hypotheses of the statements -/

/-- A state in which cancellation takes effect after exactly k primitive actions, the boundary of `quiet k`. -/
def cancelAfter (s : State) (k : Nat) : State := { s with cancel := some k }

theorem cancelAfter_quiet (s : State) (k : Nat) : (cancelAfter s k).quiet k := by
  intro n h
  cases h
  exact Nat.le_refl k

theorem witness_EntryPointIsFixed : ∃ s, boot (some [0x40, 0x00]) = .ready s := ⟨_, rfl⟩
theorem witness_FileWordsAreBigEndian : (fileWords [0x12, 0x34, 0x56, 0x78, 0x9A])[1]? = some 0x5678 := by decide
-- the last address that fits
theorem witness_ImageIsCopiedVerbatim : fileWords [0xFF, 0xFF, 0x12, 0x34, 0x56, 0x78] = 0xFFFF :: [0x1234, 0x5678] ∧
    ([0x1234, 0x5678] : List Word)[0]? = some 0x1234 ∧ (0xFFFF#16).toNat + 0 < 65536 := by decide
-- each clause at its boundary: below the origin, just past the image, past the address space
theorem witness_UncoveredWordsAreZero : fileWords [0x30, 0x00, 0x12, 0x34] = 0x3000 :: [0x1234] ∧
    (∃ s, boot (some [0x30, 0x00, 0x12, 0x34]) = .ready s) ∧ 0x2FFF < (0x3000#16).toNat ∧
    (0x3000#16).toNat + ([0x1234] : List Word).length ≤ 0x3001 ∧ 65536 ≤ 65536 :=
  ⟨by decide, ⟨_, rfl⟩, by decide, by decide, by decide⟩
theorem witness_StartupErrors : ([0x30] : List Byte).length < 2 ∧ 2 ≤ ([0x30, 0x00] : List Byte).length := by decide
theorem witness_DecodeOfEncode : (Instr.trapOther 0xF 0x1F).wellFormed = true ∧ (Instr.ld 7 0x1FF).wellFormed = true := by
  decide
theorem witness_IgnoredBitsAreIgnored : decode 0x9440 = some (.not 2 1) ∧
    0x947F#16 &&& (Instr.not 2 1).usedMask = 0x9440#16 &&& (Instr.not 2 1).usedMask := by decide
theorem witness_SignExtensionLaw : 5 ∈ [5, 6, 8, 9, 11] ∧ 11 ∈ [5, 6, 8, 9, 11] := by decide
theorem witness_FlagFollowsTheValue : (cancelAfter start 1).quiet 1 := cancelAfter_quiet _ _
theorem witness_AddResult : (cancelAfter start 2).quiet 2 := cancelAfter_quiet _ _
theorem witness_AndResult : (cancelAfter start 2).quiet 2 := cancelAfter_quiet _ _
theorem witness_NotResult : (cancelAfter start 2).quiet 2 := cancelAfter_quiet _ _
theorem witness_ImmediateAndRegisterFormsAgree : (start.setReg 2 0xFFFD).reg 2 = sext 0b11101#5 := by decide
theorem witness_BranchLaw_taken : 0b010#3 &&& start.cond.bits ≠ 0b000 ∧ (cancelAfter start 1).quiet 1 :=
  ⟨by decide, cancelAfter_quiet _ _⟩
theorem witness_BranchLaw_untaken : 0b101#3 &&& start.cond.bits = 0b000 := by decide
theorem witness_JumpThroughRegister : (cancelAfter start 1).quiet 1 := cancelAfter_quiet _ _
theorem witness_CallRelative : (cancelAfter start 2).quiet 2 := cancelAfter_quiet _ _
theorem witness_CallThroughRegister : (cancelAfter start 2).quiet 2 := cancelAfter_quiet _ _
theorem witness_CallReturnRoundTrip : start.quiet 2 ∧ (∃ t, exec (.jsr 5) start = .next t ∧ t.reg 7 = t.reg 7 ∧
    t.quiet 1 ∧ ∃ v, exec (.jmp 7) t = .next v) :=
  ⟨State.quiet_of_none _ rfl _, _, rfl, rfl, State.quiet_of_none _ rfl _, _, rfl⟩
theorem witness_LoadResult : (cancelAfter start 3).quiet 3 := cancelAfter_quiet _ _
theorem witness_LoadIndirectResult : (cancelAfter start 4).quiet 4 := cancelAfter_quiet _ _
theorem witness_LoadAddressResult : (cancelAfter start 2).quiet 2 := cancelAfter_quiet _ _
theorem witness_StoreResult : (cancelAfter start 1).quiet 1 := cancelAfter_quiet _ _
theorem witness_StoreIndirectResult : (cancelAfter start 2).quiet 2 := cancelAfter_quiet _ _
theorem witness_MemoryReadPollsTheKeyboard : (0xFE01 : Word) ≠ kbsrAddr ∧ (start.hostKey 0x61).input = ⟨0, 0x61⟩ :: [] ∧
    start.inAvail = false ∧ (0xFE01 : Word) ≠ kbdrAddr := by decide
/-- The second clause that finds nothing: a character that has not yet arrived. -/
theorem witness_MemoryReadPollsTheKeyboard_unseen : (start.setInput [⟨1, 0x61⟩]).inAvail = false := by decide
theorem witness_StoreSetsOneWord : (0xFE02 : Word) ≠ kbsrAddr := by decide
theorem witness_StoreIsSeenByALaterFetch :
    let s := start.setReg 1 0x1025
    let a : Word := s.pc + sext 4#9
    ∃ t, exec (.st 1 4) s = .next t ∧ a ≠ kbsrAddr ∧ (t.setPc a).word a = t.word a ∧ (t.setPc a).pc = a ∧
      (t.setPc a).run = .running ∧ (t.setPc a).inflight = none ∧ s.quiet 1 ∧ (t.setPc a).quiet 2 ∧
      decode (s.reg 1) = some (.addImm 0 0 5) :=
  ⟨_, rfl, by decide, rfl, rfl, rfl, rfl, State.quiet_of_none _ rfl _, State.quiet_of_none _ rfl _, by decide⟩
theorem witness_TrapSavesReturnAddress : (Instr.trapOther 0 0x26).isTrap = true ∧ (cancelAfter start 1).quiet 1 ∧
    ∃ t, exec (.trapOther 0 0x26) (cancelAfter start 1) = .next t := ⟨rfl, cancelAfter_quiet _ _, _, rfl⟩
theorem witness_GetcResult : (cancelAfter (start.hostKey 0x80) 4).input = ⟨0, 0x80⟩ :: [] ∧
    (cancelAfter (start.hostKey 0x80) 4).quiet 4 := ⟨rfl, cancelAfter_quiet _ _⟩
theorem witness_CharToWordLaw : (0x7F#8).toNat < 0x80 ∧ 0x80 ≤ (0x80#8).toNat := by decide
theorem witness_InResult : (cancelAfter (start.hostKey 0x6B) 6).input = ⟨0, 0x6B⟩ :: [] ∧
    (cancelAfter (start.hostKey 0x6B) 6).quiet ((cancelAfter (start.hostKey 0x6B) 6).params.inPrompt.length + 5) :=
  ⟨rfl, cancelAfter_quiet _ _⟩
theorem witness_InputWaitIsHeld : (start.setInflight (some .inn)).input = [] ∧
    (start.setInflight (some .inn)).cancel = none ∧ (start.setInflight (some .inn)).run = .running ∧
    (start.setInflight (some .getc)).inflight = some .getc ∧ (start.setInflight (some .inn)).inflight = some .inn := by
  decide
theorem witness_InputWaitLifts : (start.setInflight (some .getc)).input = [] ∧
    (start.setInflight (some .getc)).cancel = none ∧ (start.setInflight (some .getc)).run = .running ∧
    (start.setInflight (some .getc)).inflight = some .getc ∧ (start.setInflight (some .inn)).inflight = some .inn := by
  decide
theorem witness_OutResult : (cancelAfter start 2).quiet 2 := cancelAfter_quiet _ _
/-- "A" at 0x4000, then a zero word. -/
def oneLetter : State := cancelAfter ((start.setReg 0 0x4000).store 0x4000 0x0041) 4
theorem witness_PutsResult : oneLetter.holdsString (oneLetter.reg 0) [0x0041] ∧ oneLetter.quiet (2 * 1 + 2) := by
  refine ⟨⟨fun i w h => ?_, by decide⟩, cancelAfter_quiet _ _⟩
  cases i with
  | zero => cases h; decide
  | succ i => cases h
theorem witness_PutspResult : oneLetter.holdsString (oneLetter.reg 0) [0x0041] ∧
    oneLetter.quiet ((([0x0041] : List Word).flatMap fun w =>
      lowByte w :: (if highByte w = 0x00 then [] else [highByte w])).length + 1 + 2) :=
  ⟨witness_PutsResult.1, State.quiet_mono (k := 4) (cancelAfter_quiet _ _) (by decide)⟩
theorem witness_StringServicesEndOrHang_end : start.cancel = none ∧ start.inflight = none ∧ start.word 0x0000 = 0x0000 :=
  ⟨rfl, rfl, rfl⟩
theorem witness_StringServicesEndOrHang_resumedEnd : (start.setInflight (some (.puts 0xFFFF))).cancel = none ∧
    (start.setInflight (some (.putsp 0xFFFF))).cancel = none ∧ start.run = .running ∧
    (start.setInflight (some (.puts 0xFFFF))).word 0x0000 = 0x0000 := ⟨rfl, rfl, rfl, rfl⟩
/-- Memory in which every word is 1. -/
def noZero : State := { start with mem := (List.range 65536).map fun a => (a, 0x0001) }
theorem read_ones (l : List Nat) (a : Nat) (h : a ∈ l) : Memory.read (l.map fun b => (b, (0x0001 : Word))) a = 0x0001 := by
  induction l with
  | nil => cases h
  | cons b l ih =>
    by_cases hb : a = b
    · simp [Memory.read, hb]
    · simp only [List.map_cons, Memory.read, if_neg hb]
      exact ih ((List.mem_cons.1 h).resolve_left hb)
theorem word_ones (s : State) (l : List Nat) (a : Word) (h : a.toNat ∈ l) :
    ({ s with mem := l.map fun b => (b, (0x0001 : Word)) } : State).word a = 0x0001 := read_ones l _ h
theorem noZero_word (a : Word) : noZero.word a ≠ 0x0000 := by
  have h : noZero.word a = 0x0001 := word_ones start (List.range 65536) a (List.mem_range.2 a.isLt)
  rw [h]
  decide
theorem noZero_inflight (p : Option Service) (b : Word) : (noZero.setInflight p).word b ≠ 0x0000 := by
  rw [State.word_setInflight]
  exact noZero_word b
/-- PUTS and PUTSP in memory with no zero word: the TRAP. -/
theorem witness_StringServicesEndOrHang_hang : noZero.cancel = none ∧ (∀ b, noZero.word b ≠ 0x0000) ∧
    noZero.reg 0 = 0x0000 := ⟨rfl, noZero_word, rfl⟩
/-- PUTS in memory with no zero word: the service in flight, at the last address. -/
theorem witness_StringServicesEndOrHang_puts : noZero.cancel = none ∧ noZero.run = .running ∧
    (noZero.setInflight (some (.puts 0xFFFF))).inflight = some (.puts 0xFFFF) ∧
    ∀ b, (noZero.setInflight (some (.puts 0xFFFF))).word b ≠ 0x0000 :=
  ⟨rfl, rfl, rfl, noZero_inflight _⟩
/-- PUTSP in memory with no zero word: the service in flight, at the last address. -/
theorem witness_StringServicesEndOrHang_putsp : noZero.cancel = none ∧ noZero.run = .running ∧
    (noZero.setInflight (some (.putsp 0xFFFF))).inflight = some (.putsp 0xFFFF) ∧
    ∀ b, (noZero.setInflight (some (.putsp 0xFFFF))).word b ≠ 0x0000 :=
  ⟨rfl, rfl, rfl, noZero_inflight _⟩
theorem witness_HaltResult : (cancelAfter start 3).quiet ((cancelAfter start 3).params.haltNotice.length + 2) :=
  cancelAfter_quiet _ _
theorem witness_UnknownTrapResult : (cancelAfter start 2).quiet 2 ∧ start.params.unknownTrap = .fault ∧
    ({ start with params := ⟨[], [], [], .sext, .noop⟩ } : State).params.unknownTrap = .noop :=
  ⟨cancelAfter_quiet _ _, rfl, rfl⟩
theorem witness_ReservedOpcodeFault : (cancelAfter start 1).quiet 1 := cancelAfter_quiet _ _
theorem witness_RegisterFrame : (∃ t, exec (.trapIn) start = .next t) ∧ (1 : Reg) ∉ writtenRegs .trapIn :=
  ⟨⟨_, rfl⟩, by decide⟩
theorem witness_FlagFrame : (∃ t, exec (.st 1 0) start = .next t) ∧ writesCond (.st 1 0) = false := ⟨⟨_, rfl⟩, rfl⟩
theorem witness_ProgramCounterFrame : (∃ t, exec .trapHalt start = .next t) ∧ Instr.trapHalt.isControlTransfer = false :=
  ⟨⟨_, rfl⟩, rfl⟩
/-- A store, a word beside it, and the keyboard registers with no read of KBSR. -/
theorem witness_MemoryFrame : (∃ t, exec (.st 1 0) start = .next t) ∧ storeAddress (.st 1 0) start ≠ some 0x3001 ∧
    storeAddress (.st 1 0) start ≠ some kbdrAddr ∧ kbsrAddr ∉ readAddresses (.st 1 0) start :=
  ⟨⟨_, rfl⟩, by decide, by decide, by decide⟩
theorem witness_OutputFrame : (∃ t, exec .trapGetc start = .next t) ∧ Instr.trapGetc.emitsOutput = false := ⟨⟨_, rfl⟩, rfl⟩
theorem witness_RunStateFrame : ∃ t, exec .trapHalt start = .next t := ⟨_, rfl⟩
theorem witness_InputFrame : (∃ t, exec (.ld 0 0) start = .next t) ∧ Instr.ld 0 0 ≠ .trapGetc ∧ Instr.ld 0 0 ≠ .trapIn ∧
    Instr.ld 0 0 ≠ .trapPuts ∧ Instr.ld 0 0 ≠ .trapPutsp ∧ kbsrAddr ∉ readAddresses (.ld 0 0) start :=
  ⟨⟨_, rfl⟩, by decide, by decide, by decide, by decide, by decide⟩
theorem witness_StepRunsDecodedInstruction : (cancelAfter start 2).run = .running ∧
    (cancelAfter start 2).inflight = none ∧ (cancelAfter start 2).quiet 2 ∧
    decode ((cancelAfter start 2).readValue (cancelAfter start 2).pc) = some (.br 0 0) :=
  ⟨rfl, rfl, cancelAfter_quiet _ _, by decide⟩
theorem witness_StepsExactlyWhileRunning : (start.setRun .cancelled).run ≠ .running ∧ start.run = .running := by decide
theorem witness_InvariantKeptByStep : start.Inv ∧ ∃ t, step start = .next t :=
  ⟨⟨⟨List.Pairwise.nil, by intro c hc; cases hc⟩, fun h => absurd rfl h⟩, _, rfl⟩
theorem witness_OutputOnlyGrows : ∃ t, Sys2Proof.core.run 1 start = .next t := ⟨_, rfl⟩
/-- A second cancellation does not put off the first (log 12), and one after the end has no effect (R138). -/
theorem test_hostCancel_keeps_the_earlier : ((start.hostCancel 2).hostCancel 7).cancel = some 2 ∧
    ((start.hostCancel 7).hostCancel 2).cancel = some 2 ∧ ((start.setRun .halted).hostCancel 2).cancel = none := by decide
theorem witness_CancellationAtOnce : (cancelAfter start 0).run = .running ∧ (cancelAfter start 0).cancel = some 0 := by
  decide
theorem witness_CancellationCutsTheInstructionShort :
    (∃ u, exec .trapOut { start with cancel := none } = .next u) ∧
    (∃ t, exec .trapOut { start with cancel := some 1 } = .next t) := ⟨⟨_, rfl⟩, ⟨_, rfl⟩⟩

end Sys2Proof.Tests
end

section
/-! Sign and zero extension of a field that fits a Word (00_scope.md R15): what the extended Word's value is, for every
width up to 16. -/

namespace Sys2Proof.Machine

variable {k : Nat}

theorem sext_toInt (hk : k ≤ 16) (f : BitVec k) : (sext f).toInt = f.toInt :=
  BitVec.toInt_signExtend_of_le hk

theorem zext_toNat (hk : k ≤ 16) (f : BitVec k) : (zext f).toNat = f.toNat :=
  BitVec.toNat_setWidth_of_le hk

/-- The reading of R15: the field's top bit decides whether `2^k` is taken off. -/
theorem sext_toInt_eq_ite (hk : k ≤ 16) (f : BitVec k) :
    (sext f).toInt = if f.getLsbD (k - 1) then (f.toNat : Int) - 2 ^ k else (f.toNat : Int) := by
  rw [sext_toInt hk, BitVec.toInt_eq_msb_cond, BitVec.msb_eq_getLsbD_last, Nat.cast_pow, Nat.cast_ofNat]

/-- The widths of R15 fit a Word. -/
theorem fieldWidth_le_word : ∀ k ∈ [5, 6, 8, 9, 11], k ≤ 16 := by decide

/-- Settles O11: the law holds at every width up to 16, and the spec's five widths are such. -/
theorem signExtensionLaw : Obligations.SignExtensionLaw := by
  intro k hk f
  have hle : k ≤ 16 := fieldWidth_le_word k hk
  exact ⟨sext_toInt_eq_ite hle f, zext_toNat hle f⟩

end Sys2Proof.Machine
end

section
/-! Startup (70_reset_and_hazards.md R151 to R157): what a file that starts the block must hold, and the state it leads
to. The image reaches memory and nothing else, so the entry point is that of reset (10_state.md R31). -/

namespace Sys2Proof.Machine

/-- Everything a successful startup can be: the file has an origin word, and the words after it are copied into the memory
of the reset state. -/
theorem boot_eq_ready_iff {file : Option (List Byte)} {s : State} :
    boot file = .ready s ↔ ∃ bytes origin ws, file = some bytes ∧ fileWords bytes = origin :: ws ∧
      s = { State.reset with mem := Memory.load [] origin.toNat ws } := by
  cases file with
  | none => simp [boot]
  | some bytes => cases hw : fileWords bytes <;> simp [boot, hw, eq_comm]

/-- Settles O1: the image load writes memory alone, whatever the origin. -/
theorem entryPointIsFixed : Obligations.EntryPointIsFixed := by
  refine ⟨rfl, fun file s hboot => ?_⟩
  obtain ⟨bytes, origin, ws, -, -, rfl⟩ := boot_eq_ready_iff.mp hboot
  rfl

end Sys2Proof.Machine
end

section
/-! The condition flag as a reading of the Word's signed value (10_state.md R25): the model tests the Word for zero and
then looks at its bit 15, which is the sign of the two's complement value. -/

namespace Sys2Proof.Machine

/-- Bit 15 of a Word is its sign. -/
theorem getLsbD_fifteen_eq_true_iff (v : Word) : v.getLsbD 15 = true ↔ v.toInt < 0 := by
  rw [← BitVec.msb_eq_getLsbD_last (x := v), BitVec.msb_eq_toInt, decide_eq_true_iff]

/-- The three branches of SetCC, each with the sign it stands for. -/
theorem condOf_cases (v : Word) :
    (condOf v = .zero ∧ v.toInt = 0) ∨ (condOf v = .negative ∧ v.toInt < 0) ∨ (condOf v = .positive ∧ 0 < v.toInt) := by
  by_cases hzero : v = 0x0000
  · exact .inl ⟨if_pos hzero, by rw [hzero]; rfl⟩
  · have hne : v.toInt ≠ 0 := fun h => hzero (BitVec.eq_of_toInt_eq h)
    by_cases hneg : v.getLsbD 15 = true
    · exact .inr (.inl ⟨(if_neg hzero).trans (if_pos hneg), (getLsbD_fifteen_eq_true_iff v).mp hneg⟩)
    · have hnonneg : ¬ v.toInt < 0 := fun h => hneg ((getLsbD_fifteen_eq_true_iff v).mpr h)
      exact .inr (.inr ⟨(if_neg hzero).trans (if_neg hneg), by omega⟩)

/-- The flag and the sign determine each other, since the three signs exclude each other. -/
theorem condOf_sign (v : Word) :
    (condOf v = .zero ↔ v.toInt = 0) ∧ (condOf v = .negative ↔ v.toInt < 0) ∧ (condOf v = .positive ↔ 0 < v.toInt) := by
  obtain ⟨hc, hv⟩ | ⟨hc, hv⟩ | ⟨hc, hv⟩ := condOf_cases v <;> simp [hc] <;> omega

/-- Settles O12: SetCC is one primitive action that sets the flag `condOf v`, which is the sign of `v`. -/
theorem flagFollowsTheValue : Obligations.FlagFollowsTheValue :=
  fun v _ hquiet => ⟨condOf v, setCC_quiet v hquiet, condOf_sign v⟩

end Sys2Proof.Machine
end

section
/-! Stores (20_memory.md R48): the two reading rules of a store, and its frame over the input and output. -/

namespace Sys2Proof.Machine

/-- Settles O29: the reading rules of a store at its own address and at any other; the input and output are fields a
store leaves alone. -/
theorem storeSetsOneWord : Obligations.StoreSetsOneWord :=
  fun s a v =>
    ⟨s.word_store_self a v, fun _ hne => s.word_store_of_ne hne v, s.store_input a v, s.store_out a v⟩

end Sys2Proof.Machine
end

section
/-! ADD, AND and NOT (41_alu.md R93 to R97): each is one `writeResult`, of a value read from the registers before the first
write. Reading is no primitive action, so a state that is quiet for the two writes is quiet for the whole instruction. -/

namespace Sys2Proof.Machine

/-! ### The value that each form writes -/

theorem exec_addReg (dr sr1 sr2 : Reg) (s : State) :
    exec (.addReg dr sr1 sr2) s = perform (writeResult dr (s.reg sr1 + s.reg sr2)) s := rfl

theorem exec_addImm (dr sr1 : Reg) (imm5 : BitVec 5) (s : State) :
    exec (.addImm dr sr1 imm5) s = perform (writeResult dr (s.reg sr1 + sext imm5)) s := rfl

theorem exec_andReg (dr sr1 sr2 : Reg) (s : State) :
    exec (.andReg dr sr1 sr2) s = perform (writeResult dr (s.reg sr1 &&& s.reg sr2)) s := rfl

theorem exec_andImm (dr sr1 : Reg) (imm5 : BitVec 5) (s : State) :
    exec (.andImm dr sr1 imm5) s = perform (writeResult dr (s.reg sr1 &&& sext imm5)) s := rfl

theorem exec_not (dr sr : Reg) (s : State) :
    exec (.not dr sr) s = perform (writeResult dr (~~~s.reg sr)) s := rfl

/-! ### The state that the write leaves -/

/-- The meaning of an instruction whose whole effect is to define `dr`. -/
theorem perform_writeResult_quiet (dr : Reg) (v : Word) {s : State} (hquiet : s.quiet 2) :
    perform (writeResult dr v) s = .next (((s.spend 2).setReg dr v).setCond (condOf v)) :=
  perform_of_ok (writeResult_quiet dr v hquiet)

/-- Settles O13: both forms write a sum, the second operand being SR2 or the extended immediate. -/
theorem addResult : Obligations.AddResult := by
  intro dr sr1 sr2 imm5 s hquiet
  constructor
  · rw [exec_addReg, perform_writeResult_quiet dr _ hquiet]
  · rw [exec_addImm, perform_writeResult_quiet dr _ hquiet]

/-- Settles O14: both forms write a conjunction, the second operand being SR2 or the extended immediate. -/
theorem andResult : Obligations.AndResult := by
  intro dr sr1 sr2 imm5 s hquiet
  constructor
  · rw [exec_andReg, perform_writeResult_quiet dr _ hquiet]
  · rw [exec_andImm, perform_writeResult_quiet dr _ hquiet]

/-- Settles O15: NOT writes the complement of its one source. -/
theorem notResult : Obligations.NotResult := by
  intro dr sr s hquiet
  rw [exec_not, perform_writeResult_quiet dr _ hquiet]

end Sys2Proof.Machine
end

section
/-! BR, JMP, JSR and JSRR (42_control.md R101 to R106): each taken transfer is one write of `pc`, which a call has after it
saves the return address. The target is looked up in the state that stands then, so JSRR R7 reads the address just saved. -/

namespace Sys2Proof.Machine

theorem branchTaken_eq_true_iff (nzp : BitVec 3) (c : Cond) : branchTaken nzp c = true ↔ nzp &&& c.bits ≠ 0b000 :=
  bne_iff_ne

/-! ### The statements of each form -/

/-- A call whose target is `target` of the state in which the return address is already saved. -/
def callVia (target : State → Word) : Exec Unit := do
  saveReturn
  setPc (← look target)

theorem exec_br (nzp : BitVec 3) (off9 : BitVec 9) (s : State) :
    exec (.br nzp off9) s =
      perform (if branchTaken nzp s.cond then setPc (s.pc + sext off9) else pure ()) s := by
  show perform (look (·.cond) >>= fun c =>
    if branchTaken nzp c then look (pcRelative · off9) >>= setPc else pure ()) s = _
  simp only [perform, bind_look, ite_apply_state, pcRelative]

theorem exec_jmp (baseR : Reg) (s : State) : exec (.jmp baseR) s = perform (setPc (s.reg baseR)) s := rfl

theorem exec_jsr (off11 : BitVec 11) (s : State) :
    exec (.jsr off11) s = perform (callVia (pcRelative · off11)) s := rfl

theorem exec_jsrr (baseR : Reg) (s : State) : exec (.jsrr baseR) s = perform (callVia (·.reg baseR)) s := rfl

/-! ### The state that the transfer leaves -/

theorem perform_setPc_quiet (v : Word) {s : State} (hquiet : s.quiet 1) :
    perform (setPc v) s = .next ((s.spend 1).setPc v) :=
  perform_of_ok (setPc_quiet v hquiet)

/-- The two writes of a call; the target is read between them. -/
theorem callVia_quiet (target : State → Word) {s : State} (hquiet : s.quiet 2) :
    callVia target s =
      .ok () (((s.spend 2).setReg linkReg s.pc).setPc (target ((s.spend 1).setReg linkReg s.pc))) := by
  have hquiet' : (s.spend 1).quiet 1 := State.quiet_spend hquiet
  rw [callVia, bind_of_ok (saveReturn_quiet (State.quiet_mono hquiet (by decide))), bind_look,
    setPc_quiet _ (by simpa using hquiet')]
  simp

/-- Settles O17: the mask decides between one write of `pc` and no action at all. -/
theorem branchLaw : Obligations.BranchLaw := by
  intro nzp off9 s
  constructor
  · intro hmeets hquiet
    rw [exec_br, if_pos ((branchTaken_eq_true_iff _ _).mpr hmeets), perform_setPc_quiet _ hquiet]
  · intro hmisses
    rw [exec_br, if_neg fun htaken => (branchTaken_eq_true_iff _ _).mp htaken hmisses]
    exact perform_of_ok (pure_apply () s)

/-- Settles O19: the register is read in the state before the write of `pc`. -/
theorem jumpThroughRegister : Obligations.JumpThroughRegister := by
  intro baseR s hquiet
  rw [exec_jmp, perform_setPc_quiet _ hquiet]

/-- Settles O20: saving the return address leaves `pc` alone, so the offset is added to the address saved. -/
theorem callRelative : Obligations.CallRelative := by
  intro off11 s hquiet
  rw [exec_jsr, perform_of_ok (callVia_quiet _ hquiet)]
  rfl

/-- Settles O21: the register is read after the return address was saved, so for R7 it is that address. -/
theorem callThroughRegister : Obligations.CallThroughRegister := by
  intro baseR s hquiet
  rw [exec_jsrr, perform_of_ok (callVia_quiet _ hquiet), State.reg_setReg, State.reg_spend]
  rfl

end Sys2Proof.Machine
end

section
/-! The loads, the stores and LEA (43_load_store.md R108 to R114): the forms of one kind differ in their effective address
alone, which is read before the first primitive action. LDI and STI put the MemRead of a pointer in front of the same load
or store, which then runs in the state that the poll of that MemRead leaves. -/

namespace Sys2Proof.Machine

/-! ### The statements of each form -/

/-- The load of LD, LDI and LDR, once the address is known. -/
def loadFrom (dr : Reg) (a : Word) : Exec Unit := do
  writeResult dr (← memRead a)

/-- The store of ST, STI and STR, once the address is known. -/
def storeTo (sr : Reg) (a : Word) : Exec Unit := do
  memWrite a (← look (·.reg sr))

theorem exec_ld (dr : Reg) (off9 : BitVec 9) (s : State) :
    exec (.ld dr off9) s = perform (loadFrom dr (s.pc + sext off9)) s := rfl

theorem exec_ldi (dr : Reg) (off9 : BitVec 9) (s : State) :
    exec (.ldi dr off9) s = perform (memRead (s.pc + sext off9) >>= loadFrom dr) s := rfl

theorem exec_ldr (dr baseR : Reg) (off6 : BitVec 6) (s : State) :
    exec (.ldr dr baseR off6) s = perform (loadFrom dr (s.reg baseR + sext off6)) s := rfl

theorem exec_lea (dr : Reg) (off9 : BitVec 9) (s : State) :
    exec (.lea dr off9) s = perform (writeResult dr (s.pc + sext off9)) s := rfl

theorem exec_st (sr : Reg) (off9 : BitVec 9) (s : State) :
    exec (.st sr off9) s = perform (storeTo sr (s.pc + sext off9)) s := rfl

theorem exec_sti (sr : Reg) (off9 : BitVec 9) (s : State) :
    exec (.sti sr off9) s = perform (memRead (s.pc + sext off9) >>= storeTo sr) s := rfl

theorem exec_str (sr baseR : Reg) (off6 : BitVec 6) (s : State) :
    exec (.str sr baseR off6) s = perform (storeTo sr (s.reg baseR + sext off6)) s := rfl

/-! ### The state that they leave -/

/-- A MemRead counts one action off the quiet ones; its poll counts none. -/
theorem quiet_after_memRead (a : Word) {k : Nat} {s : State} (hquiet : s.quiet (1 + k)) :
    ((s.spend 1).afterRead a).quiet k :=
  (State.quiet_afterRead _ a k).mpr (State.quiet_spend hquiet)

/-- What follows a MemRead gets its Word, and runs in the state after its side effect. -/
theorem bind_memRead_quiet {β : Type} (a : Word) (rest : Word → Exec β) {s : State} (hquiet : s.quiet 1) :
    (memRead a >>= rest) s = rest (s.readValue a) ((s.spend 1).afterRead a) :=
  bind_of_ok (memRead_quiet a hquiet)

theorem loadFrom_quiet (dr : Reg) (a : Word) {s : State} (hquiet : s.quiet 3) :
    loadFrom dr a s =
      .ok () ((((s.spend 3).afterRead a).setReg dr (s.readValue a)).setCond (condOf (s.readValue a))) := by
  rw [loadFrom, bind_memRead_quiet a _ (State.quiet_mono hquiet (by decide)),
    writeResult_quiet dr _ (quiet_after_memRead a hquiet)]
  simp

theorem storeTo_quiet (sr : Reg) (a : Word) {s : State} (hquiet : s.quiet 1) :
    storeTo sr a s = .ok () ((s.spend 1).store a (s.reg sr)) := by
  rw [storeTo, bind_look, memWrite_quiet a _ hquiet]

/-- Settles O23: both forms are one load; the base register is read before DR is written, so DR may be that register. -/
theorem loadResult : Obligations.LoadResult := by
  intro dr baseR off9 off6 s hquiet
  constructor
  · rw [exec_ld, perform_of_ok (loadFrom_quiet dr _ hquiet)]
  · rw [exec_ldr, perform_of_ok (loadFrom_quiet dr _ hquiet)]

/-- Settles O24: the load at the pointer runs in the state that the first MemRead leaves, so it sees a poll of the
first. -/
theorem loadIndirectResult : Obligations.LoadIndirectResult := by
  intro dr off9 s hquiet ea p v
  have hload : (memRead ea >>= loadFrom dr) s =
      .ok () (((((s.spend 4).afterRead ea).afterRead p).setReg dr v).setCond (condOf v)) := by
    rw [bind_memRead_quiet ea _ (State.quiet_mono hquiet (by decide)),
      loadFrom_quiet dr _ (quiet_after_memRead ea hquiet)]
    simp [p, v]
  rw [exec_ldi, perform_of_ok hload]

/-- Settles O25: LEA writes its address as a result, with no MemRead before. -/
theorem loadAddressResult : Obligations.LoadAddressResult := by
  intro dr off9 s hquiet
  rw [exec_lea, perform_writeResult_quiet dr _ hquiet]

/-- Settles O26: both forms are one store, of a register that no earlier action could have changed. -/
theorem storeResult : Obligations.StoreResult := by
  intro sr baseR off9 off6 s hquiet
  constructor
  · rw [exec_st, perform_of_ok (storeTo_quiet sr _ hquiet)]
  · rw [exec_str, perform_of_ok (storeTo_quiet sr _ hquiet)]

/-- Settles O27: the store runs in the state that the MemRead of the pointer leaves, whose registers are those of the
start. -/
theorem storeIndirectResult : Obligations.StoreIndirectResult := by
  intro sr off9 s hquiet ea
  have hstore : (memRead ea >>= storeTo sr) s =
      .ok () (((s.spend 2).afterRead ea).store (s.readValue ea) (s.reg sr)) := by
    rw [bind_memRead_quiet ea _ (State.quiet_mono hquiet (by decide)),
      storeTo_quiet sr _ (quiet_after_memRead ea hquiet)]
    simp
  rw [exec_sti, perform_of_ok hstore]

end Sys2Proof.Machine
end

section
/-! TRAP OUT and TRAP HALT (44_trap.md R117, R120, R126): the common entry writes R7, and the service then runs in the
state it leaves, whose R0 and halt notice are those of the start. -/

namespace Sys2Proof.Machine

/-! ### The common entry -/

/-- The statements of a TRAP: save the return address, then run the service. -/
def trapTo (service : Exec Unit) : Exec Unit := do
  saveReturn
  service

theorem exec_trapOut (s : State) : exec .trapOut s = perform (trapTo serviceOut) s := rfl

theorem exec_trapHalt (s : State) : exec .trapHalt s = perform (trapTo serviceHalt) s := rfl

/-- The entry counts one action off the quiet ones. -/
theorem quiet_after_trapEntry {k : Nat} {s : State} (hquiet : s.quiet (1 + k)) :
    ((s.spend 1).setReg linkReg s.pc).quiet k :=
  (State.quiet_setReg _ linkReg s.pc k).mpr (State.quiet_spend hquiet)

/-- A TRAP is its service, however it ends, in the state after the entry. -/
theorem perform_trapTo_quiet (service : Exec Unit) {s : State} (hquiet : s.quiet 1) :
    perform (trapTo service) s = perform service ((s.spend 1).setReg linkReg s.pc) := by
  rw [perform, trapTo, bind_of_ok (saveReturn_quiet hquiet), perform]

/-! ### The services -/

theorem serviceOut_quiet {s : State} (hquiet : s.quiet 1) :
    serviceOut s = .ok () ((s.spend 1).emit [lowByte (s.reg serviceReg)]) := by
  rw [serviceOut, bind_look, outByte_quiet _ hquiet]

/-- The notice takes one action for each byte, and the halt one more. -/
theorem serviceHalt_quiet {s : State} (hquiet : s.quiet (s.params.haltNotice.length + 1)) :
    serviceHalt s =
      .ok () (((s.spend (s.params.haltNotice.length + 1)).emit s.params.haltNotice).setRun .halted) := by
  have hhalt : ((s.spend s.params.haltNotice.length).emit s.params.haltNotice).quiet 1 :=
    (State.quiet_emit _ _ 1).mpr (State.quiet_spend hquiet)
  rw [serviceHalt, bind_look, bind_of_ok (outBytes_quiet _ (State.quiet_mono hquiet (Nat.le_succ _))), halt_quiet hhalt]
  simp

/-- Settles O37: the entry writes R7 alone, so the byte emitted is that of R0 at the start. -/
theorem outResult : Obligations.OutResult := by
  intro s hquiet
  have hreg : ((s.spend 1).setReg linkReg s.pc).reg serviceReg = s.reg serviceReg :=
    State.reg_setReg_of_ne _ (by decide) s.pc
  rw [exec_trapOut, perform_trapTo_quiet _ (State.quiet_mono hquiet (by decide)),
    perform_of_ok (serviceOut_quiet (quiet_after_trapEntry hquiet)), hreg, State.spend_setReg_comm, State.spend_spend]
  rfl

/-- Settles O41: the entry, the notice and the halt are the instruction's actions in order; none changes the notice. -/
theorem haltResult : Obligations.HaltResult := by
  intro s hquiet
  have hcount : 1 + (s.params.haltNotice.length + 1) = s.params.haltNotice.length + 2 := by omega
  have hservice : ((s.spend 1).setReg linkReg s.pc).quiet (s.params.haltNotice.length + 1) :=
    quiet_after_trapEntry (hcount ▸ hquiet)
  rw [exec_trapHalt, perform_trapTo_quiet _ (State.quiet_mono hquiet (by omega)),
    perform_of_ok (serviceHalt_quiet hservice), State.spend_setReg_comm, State.spend_spend]
  simp only [State.setReg_params, State.spend_params, hcount]
  rfl

end Sys2Proof.Machine
end

section
/-! RTI and RES (45_reserved.md R130 to R132): each is the one action of raising the reserved-opcode fault, which records the
instruction's encoding, that is the whole fetched Word. -/

namespace Sys2Proof.Machine

theorem exec_rti (ign : BitVec 12) (s : State) :
    exec (.rti ign) s = perform (raiseFault .reservedOpcode (encode (.rti ign))) s := rfl

theorem exec_res (ign : BitVec 12) (s : State) :
    exec (.res ign) s = perform (raiseFault .reservedOpcode (encode (.res ign))) s := rfl

/-- A fault ends the instruction early, in a next state that differs in `run` alone. -/
theorem perform_raiseFault_quiet (kind : FaultKind) (info : Word) {s : State} (hquiet : s.quiet 1) :
    perform (raiseFault kind info) s = .next ((s.spend 1).setRun (.faulted kind info)) :=
  perform_of_error (raiseFault_quiet kind info hquiet)

/-- Settles O43: both opcodes raise the same fault and differ in the Word it records. -/
theorem reservedOpcodeFault : Obligations.ReservedOpcodeFault := by
  intro ign s hquiet
  constructor
  · rw [exec_rti, perform_raiseFault_quiet _ _ hquiet]
  · rw [exec_res, perform_raiseFault_quiet _ _ hquiet]

end Sys2Proof.Machine
end

section
/-! The encoding (30_encoding.md R62 to R78). -/

namespace Sys2Proof

/-! ### Masks as fields -/

/-- The number in the field of `f.2` bits from bit `f.1` on. -/
@[simp] def bitsAt (x : Nat) (f : Nat × Nat) : Nat := x / 2 ^ f.1 % 2 ^ f.2

theorem bitsAt_toNat_eq_iff (x y : Word) (f : Nat × Nat) :
    bitsAt x.toNat f = bitsAt y.toNat f ↔ ∀ i, f.1 ≤ i → i < f.1 + f.2 → x.getLsbD i = y.getLsbD i := by
  have hbits (z : Word) : bitsAt z.toNat f = (z.extractLsb' f.1 f.2).toNat := by
    simp [bitsAt, Nat.shiftRight_eq_div_pow]
  rw [hbits, hbits, BitVec.toNat_inj]
  constructor
  · intro h i hle hlt
    have hi := congrArg (fun z => BitVec.getLsbD z (i - f.1)) h
    have hlt' : i - f.1 < f.2 := by omega
    simpa [hlt', Nat.add_sub_cancel' hle] using hi
  · intro h
    apply BitVec.eq_of_getLsbD_eq
    intro j hj
    simpa [hj] using h (f.1 + j) (by omega) (by omega)

/-- A mask made of the fields `fs` compares two Words field by field. -/
theorem and_mask_eq_iff_bitsAt {m : Word} {fs : List (Nat × Nat)}
    (hm : ∀ i < 16, m.getLsbD i = true ↔ ∃ f ∈ fs, f.1 ≤ i ∧ i < f.1 + f.2) (hfs : ∀ f ∈ fs, f.1 + f.2 ≤ 16) (x y : Word) :
    x &&& m = y &&& m ↔ ∀ f ∈ fs, bitsAt x.toNat f = bitsAt y.toNat f := by
  simp only [and_mask_eq_iff, bitsAt_toNat_eq_iff]
  constructor
  · intro h f hf i hle hlt
    have hi : i < 16 := lt_of_lt_of_le hlt (hfs f hf)
    exact h i hi ((hm i hi).mpr ⟨f, hf, hle, hlt⟩)
  · intro h i hi hmi
    obtain ⟨f, hf, hle, hlt⟩ := (hm i hi).mp hmi
    exact h f hf i hle hlt

/-- The bits an instruction does not ignore (R77), as fields. -/
@[simp] def Instr.usedFields : Instr → List (Nat × Nat)
  | .addReg _ _ _ | .andReg _ _ _ => [(5, 11), (0, 3)]
  | .not _ _ => [(6, 10)]
  | .jmp _ => [(12, 4), (6, 3)]
  | .jsrr _ => [(11, 5), (6, 3)]
  | .trapGetc | .trapOut | .trapPuts | .trapIn | .trapPutsp | .trapHalt => [(12, 4), (0, 8)]
  | _ => [(0, 16)]

theorem Instr.usedFields_le (i : Instr) : ∀ f ∈ i.usedFields, f.1 + f.2 ≤ 16 := by
  cases i <;> simp [Instr.usedFields]

theorem Instr.usedMask_getLsbD_iff (i : Instr) :
    ∀ j < 16, i.usedMask.getLsbD j = true ↔ ∃ f ∈ i.usedFields, f.1 ≤ j ∧ j < f.1 + f.2 := by
  cases i <;> simp only [Instr.usedMask, Instr.usedFields] <;> decide

theorem Instr.and_usedMask_eq_iff (i : Instr) (x y : Word) :
    x &&& i.usedMask = y &&& i.usedMask ↔ ∀ f ∈ i.usedFields, bitsAt x.toNat f = bitsAt y.toNat f :=
  and_mask_eq_iff_bitsAt i.usedMask_getLsbD_iff i.usedFields_le x y

theorem encode_toNat (i : Instr) : (encode i).toNat = i.fieldSum := by
  cases i with
  | addReg dr a b => exact Laws.EncodedFields.addReg dr a b
  | addImm dr a imm => exact Laws.EncodedFields.addImm dr a imm
  | andReg dr a b => exact Laws.EncodedFields.andReg dr a b
  | andImm dr a imm => exact Laws.EncodedFields.andImm dr a imm
  | not dr a => exact Laws.EncodedFields.not dr a
  | br nzp off => exact Laws.EncodedFields.br nzp off
  | jmp b => exact Laws.EncodedFields.jmp b
  | jsr off => exact Laws.EncodedFields.jsr off
  | jsrr b => exact Laws.EncodedFields.jsrr b
  | ld dr off => exact Laws.EncodedFields.ld dr off
  | ldi dr off => exact Laws.EncodedFields.ldi dr off
  | ldr dr b off => exact Laws.EncodedFields.ldr dr b off
  | lea dr off => exact Laws.EncodedFields.lea dr off
  | st sr off => exact Laws.EncodedFields.st sr off
  | sti sr off => exact Laws.EncodedFields.sti sr off
  | str sr b off => exact Laws.EncodedFields.str sr b off
  | trapGetc => exact Laws.EncodedFields.trapGetc
  | trapOut => exact Laws.EncodedFields.trapOut
  | trapPuts => exact Laws.EncodedFields.trapPuts
  | trapIn => exact Laws.EncodedFields.trapIn
  | trapPutsp => exact Laws.EncodedFields.trapPutsp
  | trapHalt => exact Laws.EncodedFields.trapHalt
  | trapOther ign vec => exact Laws.EncodedFields.trapOther ign vec
  | rti ign => exact Laws.EncodedFields.rti ign
  | res ign => exact Laws.EncodedFields.res ign


/-- The Word agrees with the encoding of `i` on every bit that `i` uses. -/
@[simp] def Encodes (w : Word) (i : Instr) : Prop := ∀ f ∈ i.usedFields, bitsAt w.toNat f = bitsAt i.fieldSum f

theorem encodes_iff (w : Word) (i : Instr) : Encodes w i ↔ w &&& i.usedMask = encode i &&& i.usedMask := by
  rw [Instr.and_usedMask_eq_iff, encode_toNat, Encodes]

/-! ### The decoder's fields, recognised by their numbers -/

@[simp] theorem drField_eq_iff (w : Word) (r : Reg) : drField w = r ↔ w.toNat / 512 % 8 = r := by
  rw [Fin.ext_iff, drField_val]
@[simp] theorem srField_eq_iff (w : Word) (r : Reg) : srField w = r ↔ w.toNat / 64 % 8 = r := by
  rw [Fin.ext_iff, srField_val]
@[simp] theorem sr2Field_eq_iff (w : Word) (r : Reg) : sr2Field w = r ↔ w.toNat % 8 = r := by
  rw [Fin.ext_iff, sr2Field_val]
@[simp] theorem nzpField_eq_iff (w : Word) (b : BitVec 3) : nzpField w = b ↔ w.toNat / 512 % 8 = b.toNat := by
  rw [← BitVec.toNat_inj, nzpField_toNat]
@[simp] theorem imm5Field_eq_iff (w : Word) (b : BitVec 5) : imm5Field w = b ↔ w.toNat % 32 = b.toNat := by
  rw [← BitVec.toNat_inj, imm5Field_toNat]
@[simp] theorem off6Field_eq_iff (w : Word) (b : BitVec 6) : off6Field w = b ↔ w.toNat % 64 = b.toNat := by
  rw [← BitVec.toNat_inj, off6Field_toNat]
@[simp] theorem off9Field_eq_iff (w : Word) (b : BitVec 9) : off9Field w = b ↔ w.toNat % 512 = b.toNat := by
  rw [← BitVec.toNat_inj, off9Field_toNat]
@[simp] theorem off11Field_eq_iff (w : Word) (b : BitVec 11) : off11Field w = b ↔ w.toNat % 2048 = b.toNat := by
  rw [← BitVec.toNat_inj, off11Field_toNat]
@[simp] theorem trapField_eq_iff (w : Word) (b : BitVec 8) : trapField w = b ↔ w.toNat % 256 = b.toNat := by
  rw [← BitVec.toNat_inj, trapField_toNat]
@[simp] theorem trapIgnored_eq_iff (w : Word) (b : BitVec 4) :
    w.extractLsb' 8 4 = b ↔ w.toNat / 256 % 16 = b.toNat := by
  rw [← BitVec.toNat_inj]; simp [Nat.shiftRight_eq_div_pow]
@[simp] theorem reservedIgnored_eq_iff (w : Word) (b : BitVec 12) :
    w.extractLsb' 0 12 = b ↔ w.toNat % 4096 = b.toNat := by
  rw [← BitVec.toNat_inj]; simp


/-! ### The decoder's rows, by bits 15:12 and the mode bits (R64 to R72) -/

section
variable {w : Word}

theorem decode_br (h : w.toNat / 4096 = 0x0) : decode w = some (.br (nzpField w) (off9Field w)) := by
  simp [decode, opcodeField_toNat, h]
theorem decode_addReg (h : w.toNat / 4096 = 0x1) (hmode : w.toNat / 32 % 2 = 0) :
    decode w = some (.addReg (drField w) (srField w) (sr2Field w)) := by
  simp [decode, opcodeField_toNat, h, immMode_eq, hmode]
theorem decode_addImm (h : w.toNat / 4096 = 0x1) (hmode : w.toNat / 32 % 2 = 1) :
    decode w = some (.addImm (drField w) (srField w) (imm5Field w)) := by
  simp [decode, opcodeField_toNat, h, immMode_eq, hmode]
theorem decode_ld (h : w.toNat / 4096 = 0x2) : decode w = some (.ld (drField w) (off9Field w)) := by
  simp [decode, opcodeField_toNat, h]
theorem decode_st (h : w.toNat / 4096 = 0x3) : decode w = some (.st (drField w) (off9Field w)) := by
  simp [decode, opcodeField_toNat, h]
theorem decode_jsrr (h : w.toNat / 4096 = 0x4) (hmode : w.toNat / 2048 % 2 = 0) :
    decode w = some (.jsrr (srField w)) := by
  simp [decode, opcodeField_toNat, h, jsrMode_eq, hmode]
theorem decode_jsr (h : w.toNat / 4096 = 0x4) (hmode : w.toNat / 2048 % 2 = 1) :
    decode w = some (.jsr (off11Field w)) := by
  simp [decode, opcodeField_toNat, h, jsrMode_eq, hmode]
theorem decode_andReg (h : w.toNat / 4096 = 0x5) (hmode : w.toNat / 32 % 2 = 0) :
    decode w = some (.andReg (drField w) (srField w) (sr2Field w)) := by
  simp [decode, opcodeField_toNat, h, immMode_eq, hmode]
theorem decode_andImm (h : w.toNat / 4096 = 0x5) (hmode : w.toNat / 32 % 2 = 1) :
    decode w = some (.andImm (drField w) (srField w) (imm5Field w)) := by
  simp [decode, opcodeField_toNat, h, immMode_eq, hmode]
theorem decode_ldr (h : w.toNat / 4096 = 0x6) : decode w = some (.ldr (drField w) (srField w) (off6Field w)) := by
  simp [decode, opcodeField_toNat, h]
theorem decode_str (h : w.toNat / 4096 = 0x7) : decode w = some (.str (drField w) (srField w) (off6Field w)) := by
  simp [decode, opcodeField_toNat, h]
theorem decode_rti (h : w.toNat / 4096 = 0x8) : decode w = some (.rti (w.extractLsb' 0 12)) := by
  simp [decode, opcodeField_toNat, h]
theorem decode_not (h : w.toNat / 4096 = 0x9) : decode w = some (.not (drField w) (srField w)) := by
  simp [decode, opcodeField_toNat, h]
theorem decode_ldi (h : w.toNat / 4096 = 0xA) : decode w = some (.ldi (drField w) (off9Field w)) := by
  simp [decode, opcodeField_toNat, h]
theorem decode_sti (h : w.toNat / 4096 = 0xB) : decode w = some (.sti (drField w) (off9Field w)) := by
  simp [decode, opcodeField_toNat, h]
theorem decode_jmp (h : w.toNat / 4096 = 0xC) : decode w = some (.jmp (srField w)) := by
  simp [decode, opcodeField_toNat, h]
theorem decode_res (h : w.toNat / 4096 = 0xD) : decode w = some (.res (w.extractLsb' 0 12)) := by
  simp [decode, opcodeField_toNat, h]
theorem decode_lea (h : w.toNat / 4096 = 0xE) : decode w = some (.lea (drField w) (off9Field w)) := by
  simp [decode, opcodeField_toNat, h]
theorem decode_trap (h : w.toNat / 4096 = 0xF) : decode w = some (decodeTrap w) := by
  simp [decode, opcodeField_toNat, h]

end

/-- The TRAP sub-decoder in its other direction: the row whose vector stands in bits 7:0. -/
theorem decodeTrap_eq_of_vector {w : Word} (v : BitVec 8) (h : w.toNat % 256 = v.toNat) : decodeTrap w =
    if v = Machine.vecGetc then .trapGetc
    else if v = Machine.vecOut then .trapOut
    else if v = Machine.vecPuts then .trapPuts
    else if v = Machine.vecIn then .trapIn
    else if v = Machine.vecPutsp then .trapPutsp
    else if v = Machine.vecHalt then .trapHalt
    else .trapOther (w.extractLsb' 8 4) v := by
  rw [decodeTrap, (trapField_eq_iff w v).mpr h]

/-! ### A Word decodes to an instruction exactly if it encodes it -/

theorem decode_of_encodes {w : Word} {i : Instr} (hwf : i.wellFormed = true) (h : Encodes w i) :
    decode w = some i := by
  have hw := w.isLt
  cases i <;> simp [Instr.fieldSum] at h
  case addReg dr a b => rw [decode_addReg (by omega) (by omega)]; simp; omega
  case addImm dr a imm => rw [decode_addImm (by omega) (by omega)]; simp; omega
  case andReg dr a b => rw [decode_andReg (by omega) (by omega)]; simp; omega
  case andImm dr a imm => rw [decode_andImm (by omega) (by omega)]; simp; omega
  case not dr a => rw [decode_not (by omega)]; simp; omega
  case br nzp off => rw [decode_br (by omega)]; simp; omega
  case jmp b => rw [decode_jmp (by omega)]; simp; omega
  case jsr off => rw [decode_jsr (by omega) (by omega)]; simp; omega
  case jsrr b => rw [decode_jsrr (by omega) (by omega)]; simp; omega
  case ld dr off => rw [decode_ld (by omega)]; simp; omega
  case ldi dr off => rw [decode_ldi (by omega)]; simp; omega
  case ldr dr b off => rw [decode_ldr (by omega)]; simp; omega
  case lea dr off => rw [decode_lea (by omega)]; simp; omega
  case st sr off => rw [decode_st (by omega)]; simp; omega
  case sti sr off => rw [decode_sti (by omega)]; simp; omega
  case str sr b off => rw [decode_str (by omega)]; simp; omega
  case trapGetc => rw [decode_trap (by omega), decodeTrap_eq_of_vector 0x20 h.2]; rfl
  case trapOut => rw [decode_trap (by omega), decodeTrap_eq_of_vector 0x21 h.2]; rfl
  case trapPuts => rw [decode_trap (by omega), decodeTrap_eq_of_vector 0x22 h.2]; rfl
  case trapIn => rw [decode_trap (by omega), decodeTrap_eq_of_vector 0x23 h.2]; rfl
  case trapPutsp => rw [decode_trap (by omega), decodeTrap_eq_of_vector 0x24 h.2]; rfl
  case trapHalt => rw [decode_trap (by omega), decodeTrap_eq_of_vector 0x25 h.2]; rfl
  case trapOther ign vec =>
    simp [Instr.wellFormed, Machine.isServiceVector] at hwf
    rw [decode_trap (by omega), decodeTrap_eq_of_vector vec (by omega)]
    simp [hwf]; omega
  case rti ign => rw [decode_rti (by omega)]; simp; omega
  case res ign => rw [decode_res (by omega)]; simp; omega

/-- A row of a service uses the opcode and the vector. -/
theorem encodes_of_vector {w : Word} {i : Instr} (hused : i.usedFields = [(12, 4), (0, 8)])
    (hop : w.toNat / 4096 = i.fieldSum / 4096) (hvec : w.toNat % 256 = i.fieldSum % 256) : Encodes w i := by
  rw [Encodes, hused]
  simp [hop, hvec]

theorem decodeTrap_encodes {w : Word} (hop : w.toNat / 4096 = 0xF) :
    (decodeTrap w).wellFormed = true ∧ Encodes w (decodeTrap w) := by
  have hw := w.isLt
  simp only [decodeTrap]
  split_ifs with hgetc hout hputs hin hputsp hhalt
  · exact ⟨rfl, encodes_of_vector rfl hop ((trapField_eq_iff w _).mp hgetc)⟩
  · exact ⟨rfl, encodes_of_vector rfl hop ((trapField_eq_iff w _).mp hout)⟩
  · exact ⟨rfl, encodes_of_vector rfl hop ((trapField_eq_iff w _).mp hputs)⟩
  · exact ⟨rfl, encodes_of_vector rfl hop ((trapField_eq_iff w _).mp hin)⟩
  · exact ⟨rfl, encodes_of_vector rfl hop ((trapField_eq_iff w _).mp hputsp)⟩
  · exact ⟨rfl, encodes_of_vector rfl hop ((trapField_eq_iff w _).mp hhalt)⟩
  · constructor
    · simp only [Instr.wellFormed, Machine.isServiceVector, hgetc, hout, hputs, hin, hputsp, hhalt]
      rfl
    · simp [Instr.fieldSum, trapField_toNat, Nat.shiftRight_eq_div_pow]
      omega

/-- Every Word is in some row of the table, and the instruction read from that row keeps the bits it uses. -/
theorem exists_decode_encodes (w : Word) : ∃ i, decode w = some i ∧ i.wellFormed = true ∧ Encodes w i := by
  have hw := w.isLt
  have himm := Nat.mod_two_eq_zero_or_one (w.toNat / 32)
  have hjsr := Nat.mod_two_eq_zero_or_one (w.toNat / 2048)
  have hlt : w.toNat / 4096 < 16 := by omega
  interval_cases hop : w.toNat / 4096
  · refine ⟨_, decode_br hop, rfl, ?_⟩
    simp [Instr.fieldSum, nzpField_toNat, off9Field_toNat]; omega
  · rcases himm with hmode | hmode
    · refine ⟨_, decode_addReg hop hmode, rfl, ?_⟩
      simp [Instr.fieldSum, drField_val, srField_val, sr2Field_val]; omega
    · refine ⟨_, decode_addImm hop hmode, rfl, ?_⟩
      simp [Instr.fieldSum, drField_val, srField_val, imm5Field_toNat]; omega
  · refine ⟨_, decode_ld hop, rfl, ?_⟩
    simp [Instr.fieldSum, drField_val, off9Field_toNat]; omega
  · refine ⟨_, decode_st hop, rfl, ?_⟩
    simp [Instr.fieldSum, drField_val, off9Field_toNat]; omega
  · rcases hjsr with hmode | hmode
    · refine ⟨_, decode_jsrr hop hmode, rfl, ?_⟩
      simp [Instr.fieldSum, srField_val]; omega
    · refine ⟨_, decode_jsr hop hmode, rfl, ?_⟩
      simp [Instr.fieldSum, off11Field_toNat]; omega
  · rcases himm with hmode | hmode
    · refine ⟨_, decode_andReg hop hmode, rfl, ?_⟩
      simp [Instr.fieldSum, drField_val, srField_val, sr2Field_val]; omega
    · refine ⟨_, decode_andImm hop hmode, rfl, ?_⟩
      simp [Instr.fieldSum, drField_val, srField_val, imm5Field_toNat]; omega
  · refine ⟨_, decode_ldr hop, rfl, ?_⟩
    simp [Instr.fieldSum, drField_val, srField_val, off6Field_toNat]; omega
  · refine ⟨_, decode_str hop, rfl, ?_⟩
    simp [Instr.fieldSum, drField_val, srField_val, off6Field_toNat]; omega
  · refine ⟨_, decode_rti hop, rfl, ?_⟩
    simp [Instr.fieldSum]; omega
  · refine ⟨_, decode_not hop, rfl, ?_⟩
    simp [Instr.fieldSum, drField_val, srField_val]; omega
  · refine ⟨_, decode_ldi hop, rfl, ?_⟩
    simp [Instr.fieldSum, drField_val, off9Field_toNat]; omega
  · refine ⟨_, decode_sti hop, rfl, ?_⟩
    simp [Instr.fieldSum, drField_val, off9Field_toNat]; omega
  · refine ⟨_, decode_jmp hop, rfl, ?_⟩
    simp [Instr.fieldSum, srField_val]; omega
  · refine ⟨_, decode_res hop, rfl, ?_⟩
    simp [Instr.fieldSum]; omega
  · refine ⟨_, decode_lea hop, rfl, ?_⟩
    simp [Instr.fieldSum, drField_val, off9Field_toNat]; omega
  · exact ⟨_, decode_trap hop, decodeTrap_encodes hop⟩

theorem decode_eq_some_iff (w : Word) (i : Instr) : decode w = some i ↔ i.wellFormed = true ∧ Encodes w i := by
  constructor
  · intro h
    obtain ⟨j, hj, hwf, henc⟩ := exists_decode_encodes w
    obtain rfl := Option.some.inj (h.symm.trans hj)
    exact ⟨hwf, henc⟩
  · exact fun ⟨hwf, henc⟩ => decode_of_encodes hwf henc

/-! ### The rows of the opcode table -/

/-- The bits that select an instruction's row, as fields. -/
@[simp] def Instr.rowFields : Instr → List (Nat × Nat)
  | .addReg _ _ _ | .addImm _ _ _ | .andReg _ _ _ | .andImm _ _ _ => [(12, 4), (5, 1)]
  | .jsr _ | .jsrr _ => [(11, 5)]
  | .trapGetc | .trapOut | .trapPuts | .trapIn | .trapPutsp | .trapHalt => [(12, 4), (0, 8)]
  | _ => [(12, 4)]

theorem Instr.rowMask_getLsbD_iff (i : Instr) :
    ∀ j < 16, i.rowMask.getLsbD j = true ↔ ∃ f ∈ i.rowFields, f.1 ≤ j ∧ j < f.1 + f.2 := by
  cases i <;> simp only [Instr.rowMask, Instr.rowFields] <;> decide

theorem Instr.rowFields_le (i : Instr) : ∀ f ∈ i.rowFields, f.1 + f.2 ≤ 16 := by cases i <;> simp

theorem Instr.rowMatch_and_rowMask (i : Instr) : i.rowMatch &&& i.rowMask = i.rowMatch := by
  cases i <;> simp only [Instr.rowMatch, Instr.rowMask] <;> decide

theorem Instr.usedMask_and_rowMask (i : Instr) : i.usedMask &&& i.rowMask = i.rowMask := by
  cases i <;> simp only [Instr.usedMask, Instr.rowMask] <;> decide

theorem encode_and_rowMask (i : Instr) : encode i &&& i.rowMask = i.rowMatch := by
  rw [← i.rowMatch_and_rowMask, and_mask_eq_iff_bitsAt i.rowMask_getLsbD_iff i.rowFields_le, encode_toNat]
  cases i <;> simp [Instr.fieldSum, Instr.rowMatch] <;> omega

/-- Settles O9: the encoding of `i` agrees with itself on the bits that `i` uses. -/
theorem decodeOfEncode : Obligations.DecodeOfEncode :=
  fun _ hwf => decode_of_encodes hwf ((encodes_iff _ _).mpr rfl)

/-- Settles O8: agreement on the used bits, among which are those that select the row. -/
theorem decoderIsTotal : Obligations.DecoderIsTotal := by
  intro w
  obtain ⟨i, hdec, hwf, henc⟩ := exists_decode_encodes w
  refine ⟨i, hdec, hwf, ?_⟩
  calc w &&& i.rowMask = w &&& i.usedMask &&& i.rowMask := by rw [BitVec.and_assoc, i.usedMask_and_rowMask]
    _ = encode i &&& i.usedMask &&& i.rowMask := by rw [(encodes_iff w i).mp henc]
    _ = i.rowMatch := by rw [BitVec.and_assoc, i.usedMask_and_rowMask, encode_and_rowMask]

/-- Settles O10: decoding to `i` is agreement with its encoding on the bits it uses, which passes to any Word that agrees
on them. -/
theorem ignoredBitsAreIgnored : Obligations.IgnoredBitsAreIgnored := by
  intro w i hdec
  obtain ⟨hwf, henc⟩ := (decode_eq_some_iff w i).mp hdec
  have hagree := (encodes_iff w i).mp henc
  exact ⟨hagree.symm, fun w' hw' => decode_of_encodes hwf ((encodes_iff w' i).mpr (hw'.trans hagree))⟩

/-- Settles O7: each of the thirteen Words is decoded. -/
theorem writtenOutWordsDecode : Obligations.WrittenOutWordsDecode := by
  unfold Obligations.WrittenOutWordsDecode
  decide

end Sys2Proof
end

section
/-! The image file and its load (70_reset_and_hazards.md R151 to R157): which words a file has, and which word stands at
each address after the load. -/

namespace Sys2Proof.Machine

theorem highByte_append (hi lo : Byte) : highByte (hi ++ lo) = hi := by
  have := hi.isLt
  have := lo.isLt
  apply BitVec.eq_of_toNat_eq
  rw [highByte, BitVec.extractLsb'_toNat, append_toNat, Nat.shiftRight_eq_div_pow]
  omega

theorem lowByte_append (hi lo : Byte) : lowByte (hi ++ lo) = lo := by
  apply BitVec.eq_of_toNat_eq
  rw [lowByte, BitVec.extractLsb'_toNat, append_toNat, Nat.shiftRight_zero]
  omega

theorem fileWords_length : ∀ bytes : List Byte, (fileWords bytes).length = bytes.length / 2
  | [] => rfl
  | [_] => by simp [fileWords]
  | _ :: _ :: rest => by
    rw [fileWords, List.length_cons, fileWords_length rest]
    simp only [List.length_cons]
    omega

theorem fileWords_getElem? : ∀ {bytes : List Byte} {k : Nat} {w : Word}, (fileWords bytes)[k]? = some w →
    bytes[2 * k]? = some (highByte w) ∧ bytes[2 * k + 1]? = some (lowByte w)
  | [], _, _, h => by simp [fileWords] at h
  | [_], _, _, h => by simp [fileWords] at h
  | hi :: lo :: rest, 0, w, h => by
    obtain rfl : hi ++ lo = w := by simpa [fileWords] using h
    simp [highByte_append, lowByte_append]
  | _ :: _ :: rest, k + 1, w, h => by
    have hrest : (fileWords rest)[k]? = some w := by simpa [fileWords] using h
    simpa [Nat.mul_add] using fileWords_getElem? hrest

/-- Settles O3: the file's words by recursion on the file, two bytes at a time. -/
theorem fileWordsAreBigEndian : Obligations.FileWordsAreBigEndian :=
  fun bytes => ⟨fileWords_length bytes, fun _ _ => fileWords_getElem?⟩

/-- The word at each address after a load: the image's where the image reaches it below 65536, else the one before. -/
theorem Memory.read_load (ws : List Word) : ∀ (m : Memory) (a b : Nat), (m.load a ws).read b =
    if a ≤ b ∧ b < 65536 then (ws[b - a]?).getD (m.read b) else m.read b := by
  induction ws with
  | nil => intro m a b; simp [Memory.load]
  | cons w ws ih =>
    intro m a b
    unfold Memory.load
    by_cases ha : a < 65536
    · rw [if_pos ha, ih, Memory.read_write]
      by_cases hba : b = a
      · subst hba
        simp [ha]
      · by_cases hlt : a < b
        · obtain ⟨d, rfl⟩ := Nat.exists_eq_add_of_lt hlt
          have hsub : a + d + 1 - a = d + 1 := by omega
          have hsub' : a + d + 1 - (a + 1) = d := by omega
          simp [hba, hsub, hsub', show a + 1 ≤ a + d + 1 by omega, show a ≤ a + d + 1 by omega]
        · simp [hba, show ¬ a + 1 ≤ b by omega, show ¬ a ≤ b by omega]
    · rw [if_neg ha, if_neg (by omega)]

theorem boot_of_fileWords {bytes : List Byte} {origin : Word} {ws : List Word} (h : fileWords bytes = origin :: ws) :
    boot (some bytes) = .ready { State.reset with mem := Memory.load [] origin.toNat ws } :=
  boot_eq_ready_iff.mpr ⟨bytes, origin, ws, rfl, h, rfl⟩

/-- Settles O4: the reading rule of a load, at an address the image reaches. -/
theorem imageIsCopiedVerbatim : Obligations.ImageIsCopiedVerbatim := by
  intro bytes origin ws hwords
  refine ⟨_, boot_of_fileWords hwords, fun i w hw hfits => ?_⟩
  show (Memory.load [] origin.toNat ws).read (origin.toNat + i) = w
  rw [Memory.read_load, if_pos ⟨Nat.le_add_right _ _, hfits⟩, Nat.add_sub_cancel_left, hw]
  rfl

/-- Settles O5: the reading rule of a load, at an address the image does not reach: what the empty memory holds there. -/
theorem uncoveredWordsAreZero : Obligations.UncoveredWordsAreZero := by
  intro bytes origin ws s hwords hboot a hout
  obtain rfl := Startup.ready.inj ((boot_of_fileWords hwords).symm.trans hboot)
  show (Memory.load [] origin.toNat ws).read a = 0x0000
  rw [Memory.read_load]
  split
  · rename_i hin
    rw [List.getElem?_eq_none (by omega)]
    rfl
  · rfl

/-- A file has an origin word exactly if it has two bytes. -/
theorem fileWords_eq_nil_iff (bytes : List Byte) : fileWords bytes = [] ↔ bytes.length < 2 := by
  rw [← List.length_eq_zero_iff, fileWords_length]
  omega

/-- Settles O6: whether the file has an origin word decides the startup. -/
theorem startupErrors : Obligations.StartupErrors := by
  refine ⟨rfl, fun bytes hshort => ?_, fun bytes hlong => ?_, Config.exitStartup, Nat.succ_ne_zero _, rfl⟩
  · simp [boot, (fileWords_eq_nil_iff bytes).mpr hshort]
  · have hne : fileWords bytes ≠ [] := fun h => by
      have := (fileWords_eq_nil_iff bytes).mp h
      omega
    obtain ⟨origin, ws, hwords⟩ := List.exists_cons_of_ne_nil hne
    exact ⟨_, boot_of_fileWords hwords⟩

/-! ### Reset and exit -/

theorem State.reset_reg (r : Reg) : State.reset.reg r = gprReset := by
  simp [State.reg, State.reset]

/-- Settles O2: the fields of the reset state; every register and every word is read through its accessor. -/
theorem resetState : Obligations.ResetState :=
  ⟨State.reset_reg, rfl, rfl, fun _ => rfl, rfl, rfl, rfl⟩

/-- Settles O54: reset lists no word of memory and has no service in flight. -/
theorem invariantAtReset : Obligations.InvariantAtReset :=
  ⟨State.reset_mem_wf, fun h => absurd rfl h⟩

/-- Settles O59: an abort's and a cancellation's status are each one more than a free number. -/
theorem exitStatuses : Obligations.ExitStatuses :=
  ⟨rfl, rfl, ⟨Config.exitAbort, Nat.succ_ne_zero _, fun _ => ⟨rfl, rfl⟩⟩, Config.exitCancel, Nat.succ_ne_zero _, rfl⟩

end Sys2Proof.Machine
end

section
/-! A MemRead's side effect (20_memory.md R43, R46) and the step (40_execution_cycle.md R81 to R88): what a step is for each
state of the block, and which Word a fetch runs. -/

namespace Sys2Proof.Machine

/-! ### MemRead -/

@[simp] theorem State.afterRead_of_ne (s : State) {a : Word} (ha : a ≠ kbsrAddr) : s.afterRead a = s := if_neg ha

@[simp] theorem State.afterRead_kbsrAddr (s : State) : s.afterRead kbsrAddr = s.poll := if_pos rfl

theorem State.readValue_of_ne (s : State) {a : Word} (ha : a ≠ kbsrAddr) : s.readValue a = s.word a := by
  rw [State.readValue, s.afterRead_of_ne ha]

theorem State.readValue_kbsrAddr (s : State) :
    s.readValue kbsrAddr = if s.inAvail then kbsrReady else kbsrIdle := by
  rw [State.readValue, s.afterRead_kbsrAddr, State.word_poll, if_pos rfl]

theorem State.inAvail_of_pending {s : State} {c : Byte} {ks : List Key} (h : s.input = ⟨0, c⟩ :: ks) :
    s.inAvail = true := by
  rw [State.inAvail, h]
  rfl

theorem State.poll_input_of_pending {s : State} {c : Byte} {ks : List Key} (h : s.input = ⟨0, c⟩ :: ks) :
    s.poll.input = ks := by
  simp [State.poll, State.inAvail, h]

/-- A poll that finds no character may count one off the oldest, and keeps the codes. -/
theorem State.poll_codes_of_idle {s : State} (h : s.inAvail = false) :
    s.poll.input.map Key.code = s.input.map Key.code := by
  unfold State.poll
  split
  · rename_i hnil
    simp
  · rename_i k ks hcons
    simp [h, hcons]

theorem State.word_poll_kbdrAddr_of_idle {s : State} (h : s.inAvail = false) : s.poll.word kbdrAddr = s.word kbdrAddr := by
  rw [State.word_poll, if_neg (by decide), if_pos rfl]
  cases s.input <;> simp [h]

theorem State.word_afterRead_of_ne (s : State) (a : Word) {b : Word} (h1 : b ≠ kbsrAddr) (h2 : b ≠ kbdrAddr) :
    (s.afterRead a).word b = s.word b := by
  by_cases ha : a = kbsrAddr
  · rw [ha, s.afterRead_kbsrAddr, s.word_poll_of_ne h1 h2]
  · rw [s.afterRead_of_ne ha]

/-- Settles O28: elsewhere a MemRead is a lookup; at KBSR_ADDR it is a poll, whose two outcomes depend on whether a
character is pending. -/
theorem memoryReadPollsTheKeyboard : Obligations.MemoryReadPollsTheKeyboard := by
  refine ⟨fun s a ha => ⟨s.readValue_of_ne ha, s.afterRead_of_ne ha⟩, fun s c ks hinput => ?_, fun s hidle => ?_,
    fun s a b h1 h2 => s.word_afterRead_of_ne a h1 h2⟩
  · have havail := State.inAvail_of_pending hinput
    refine ⟨by simp [State.readValue_kbsrAddr, havail, kbsrReady], ?_, ?_⟩
    · rw [s.afterRead_kbsrAddr, State.word_poll, if_neg (by decide), if_pos rfl]
      simp [hinput, havail]
    · rw [s.afterRead_kbsrAddr, State.poll_input_of_pending hinput]
  · refine ⟨by simp [State.readValue_kbsrAddr, hidle, kbsrIdle], ?_, ?_⟩
    · rw [s.afterRead_kbsrAddr, State.word_poll_kbdrAddr_of_idle hidle]
    · rw [s.afterRead_kbsrAddr, State.poll_codes_of_idle hidle]

/-! ### The rule of each instruction -/

/-- The statements whose run is the meaning of an instruction, each value read before the first action that uses it. -/
def rule : Instr → Exec Unit
  | .addReg dr sr1 sr2 => look (fun s => s.reg sr1 + s.reg sr2) >>= writeResult dr
  | .addImm dr sr1 imm5 => look (fun s => s.reg sr1 + sext imm5) >>= writeResult dr
  | .andReg dr sr1 sr2 => look (fun s => s.reg sr1 &&& s.reg sr2) >>= writeResult dr
  | .andImm dr sr1 imm5 => look (fun s => s.reg sr1 &&& sext imm5) >>= writeResult dr
  | .not dr sr => look (fun s => ~~~s.reg sr) >>= writeResult dr
  | .br nzp off9 => look (·.cond) >>= fun c => if branchTaken nzp c then look (pcRelative · off9) >>= setPc else pure ()
  | .jmp baseR => look (·.reg baseR) >>= setPc
  | .jsr off11 => callVia (pcRelative · off11)
  | .jsrr baseR => callVia (·.reg baseR)
  | .ld dr off9 => look (pcRelative · off9) >>= loadFrom dr
  | .ldi dr off9 => look (pcRelative · off9) >>= fun ea => memRead ea >>= loadFrom dr
  | .ldr dr baseR off6 => look (baseOffset · baseR off6) >>= loadFrom dr
  | .lea dr off9 => look (pcRelative · off9) >>= writeResult dr
  | .st sr off9 => look (pcRelative · off9) >>= storeTo sr
  | .sti sr off9 => look (pcRelative · off9) >>= fun ea => memRead ea >>= storeTo sr
  | .str sr baseR off6 => look (baseOffset · baseR off6) >>= storeTo sr
  | .trapGetc => trapTo serviceGetc
  | .trapOut => trapTo serviceOut
  | .trapPuts => trapTo servicePuts
  | .trapIn => trapTo serviceIn
  | .trapPutsp => trapTo servicePutsp
  | .trapHalt => trapTo serviceHalt
  | .trapOther ign vec => trapTo (unknownTrap (encode (.trapOther ign vec)))
  | .rti ign => raiseFault .reservedOpcode (encode (.rti ign))
  | .res ign => raiseFault .reservedOpcode (encode (.res ign))

theorem exec_eq_perform (i : Instr) (s : State) : exec i s = perform (rule i) s := by cases i <;> rfl

/-- Settles O53: a meaning is the run of a rule, and the state a rule ends in, early or not, is a next state. -/
theorem everyInstructionAnswersNext : Obligations.EveryInstructionAnswersNext :=
  fun i s => ⟨endState (rule i s), exec_eq_perform i s⟩

/-! ### The step -/

variable {s t : State}

theorem step_of_terminal (hrun : s.run ≠ .running) : step s = .fault .notRunning := by
  unfold step
  split
  · contradiction
  all_goals rfl

theorem step_of_inflight (hrun : s.run = .running) {p : Service} (hp : s.inflight = some p) : step s = resume p s := by
  simp [step, hrun, hp]

theorem step_of_fetch_ok (hrun : s.run = .running) (hidle : s.inflight = none) {w : Word} (hf : fetch s = .ok w t) :
    step s = runWord w t := by
  simp [step, hrun, hidle, hf]

theorem step_of_fetch_error (hrun : s.run = .running) (hidle : s.inflight = none) {e : Stop}
    (hf : fetch s = .error e t) : step s = .next t := by
  simp [step, hrun, hidle, hf]

theorem runWord_of_decode {w : Word} {i : Instr} (hdec : decode w = some i) (s : State) : runWord w s = exec i s := by
  simp [runWord, hdec]

/-- Every fetched Word is executed as some instruction: the unknown-opcode stop is never taken (R133). -/
theorem exists_runWord_eq_exec (w : Word) : ∃ i, ∀ s, runWord w s = exec i s := by
  obtain ⟨i, hdec, -, -⟩ := exists_decode_encodes w
  exact ⟨i, runWord_of_decode hdec⟩

/-- What a step can be: the rest of a service, a fetch that cancellation cuts short, or a fetch and an instruction. -/
theorem step_cases (h : step s = .next t) : s.run = .running ∧
    ((∃ p, s.inflight = some p ∧ resume p s = .next t) ∨
      (s.inflight = none ∧ ∃ e, fetch s = .error e t) ∨
      (s.inflight = none ∧ ∃ w u i, fetch s = .ok w u ∧ exec i u = .next t)) := by
  by_cases hrun : s.run = .running
  · refine ⟨hrun, ?_⟩
    cases hp : s.inflight with
    | some p => exact .inl ⟨p, rfl, (step_of_inflight hrun hp).symm.trans h⟩
    | none =>
      cases hf : fetch s with
      | error e u =>
        obtain rfl := Host.Outcome.next.inj ((step_of_fetch_error hrun hp hf).symm.trans h)
        exact .inr (.inl ⟨rfl, e, rfl⟩)
      | ok w u =>
        obtain ⟨i, hi⟩ := exists_runWord_eq_exec w
        exact .inr (.inr ⟨rfl, w, u, i, rfl, (hi u).symm.trans ((step_of_fetch_ok hrun hp hf).symm.trans h)⟩)
  · rw [step_of_terminal hrun] at h
    cases h

/-- Settles O51: the fetch answers the Word of the MemRead at `pc`, and the step runs what it decodes to. -/
theorem stepRunsDecodedInstruction : Obligations.StepRunsDecodedInstruction := by
  intro s i hrun hidle hquiet hdec
  rw [step_of_fetch_ok hrun hidle (fetch_quiet hquiet), runWord_of_decode hdec]

/-- Settles O52: in a running state the service in flight or the fetched instruction is performed, and a fetch that is cut
short ends in a next state too. -/
theorem stepsExactlyWhileRunning : Obligations.StepsExactlyWhileRunning := by
  refine fun s => ⟨step_of_terminal, fun hrun => ?_⟩
  cases hp : s.inflight with
  | some p => exact ⟨_, step_of_inflight hrun hp⟩
  | none =>
    cases hf : fetch s with
    | error e u => exact ⟨u, step_of_fetch_error hrun hp hf⟩
    | ok w u =>
      obtain ⟨i, hi⟩ := exists_runWord_eq_exec w
      obtain ⟨t, ht⟩ := everyInstructionAnswersNext i u
      exact ⟨t, (step_of_fetch_ok hrun hp hf).trans ((hi u).trans ht)⟩

/-- Settles O30: the stored Word is the one a later MemRead at its address returns, and the step runs it. -/
theorem storeIsSeenByALaterFetch : Obligations.StoreIsSeenByALaterFetch := by
  intro sr off9 s t u i hquiet hst a ha hkept hpc hrun hidle hquiet' hdec
  obtain rfl := Host.Outcome.next.inj (((storeResult sr 0 off9 0 s hquiet).1).symm.trans hst)
  have hword : u.readValue u.pc = s.reg sr := by
    rw [hpc, u.readValue_of_ne ha, hkept]
    exact State.word_store_self _ a _
  rw [stepRunsDecodedInstruction u i hrun hidle hquiet' (hword ▸ hdec), hpc, State.afterRead_of_ne _ ha]

end Sys2Proof.Machine
end

section
/-! Laws of single instructions that follow from their results: the forms of ADD and AND (41_alu.md R100), BR's mask
(10_state.md R24), and the return from a call (42_control.md R104). -/

namespace Sys2Proof.Machine

/-- Settles O16: the two forms write the same value, so they are the same statements. -/
theorem immediateAndRegisterFormsAgree : Obligations.ImmediateAndRegisterFormsAgree := by
  intro dr sr1 sr2 imm5 s hsr2
  rw [exec_addReg, exec_addImm, exec_andReg, exec_andImm, hsr2]
  exact ⟨rfl, rfl⟩

/-- Settles O18: each of the eight masks against each of the three flags. -/
theorem branchMaskBits : Obligations.BranchMaskBits := by
  intro nzp c
  cases c <;> revert nzp <;> decide

/-- Settles O22: JSR leaves the return address in R7, and JMP R7 goes to what R7 holds. -/
theorem callReturnRoundTrip : Obligations.CallReturnRoundTrip := by
  intro off11 s t u v hquiet hcall hkept hquiet' hret
  obtain rfl := Host.Outcome.next.inj ((callRelative off11 s hquiet).symm.trans hcall)
  obtain rfl := Host.Outcome.next.inj ((jumpThroughRegister 7 u hquiet').symm.trans hret)
  rw [State.setPc_pc, hkept, State.reg_setPc, State.reg_setReg_self]

end Sys2Proof.Machine
end

section
/-! The services that read input (44_trap.md R117 to R124): GETC, IN and the unknown vector, their results, the wait for a
character, and how it lifts. -/

namespace Sys2Proof.Machine

theorem exec_trapGetc (s : State) : exec .trapGetc s = perform (trapTo serviceGetc) s := rfl

theorem exec_trapIn (s : State) : exec .trapIn s = perform (trapTo serviceIn) s := rfl

theorem exec_trapOther (ign : BitVec 4) (vec : BitVec 8) (s : State) :
    exec (.trapOther ign vec) s = perform (trapTo (unknownTrap (encode (.trapOther ign vec)))) s := rfl

/-- Settles O33: below 0x80 both extensions keep the value, and from 0x80 on the sign extension fills bits 15:8 with ones. -/
theorem charToWordLaw : Obligations.CharToWordLaw := by
  intro e c
  have hzext : (zext c).toNat = c.toNat := zext_toNat (by decide) c
  refine ⟨fun hlow => by simp [charToWord, hlow, hzext], fun hhigh => ?_⟩
  have hnlow : ¬ c.toNat < 0x80 := by omega
  have hmsb : c.msb = true := by rw [BitVec.msb_eq_decide]; simpa using hhigh
  refine ⟨by simp [charToWord, hnlow, hzext], ?_⟩
  simp only [charToWord, if_neg hnlow, sext, BitVec.toNat_signExtend, hmsb]
  have := c.isLt
  simp
  omega

/-! ### From the InRead on -/

/-- GETC with a character to come: one InRead and the two writes of the result. -/
theorem serviceGetc_taken {s : State} {k : Key} {ks : List Key} (hinput : s.input = k :: ks) (hquiet : s.quiet 3) :
    serviceGetc s = .ok () ((((s.spend 3).setInput ks).setReg serviceReg (charToWord s.params.charExt k.code)).setCond
      (condOf (charToWord s.params.charExt k.code))) := by
  have htake : ((s.spend 1).setInput ks).quiet 2 := (State.quiet_setInput _ ks 2).mpr (State.quiet_spend hquiet)
  rw [serviceGetc, bind_of_ok (inRead_taken .getc (State.quiet_mono hquiet (by decide)) hinput),
    takeChar_quiet k.code htake]
  simp

/-- IN from its InRead on: the echo comes between the InRead and the two writes. -/
theorem serviceInRead_taken {s : State} {k : Key} {ks : List Key} (hinput : s.input = k :: ks) (hquiet : s.quiet 4) :
    serviceInRead s = .ok () (((((s.spend 4).setInput ks).emit [k.code]).setReg serviceReg
      (charToWord s.params.charExt k.code)).setCond (condOf (charToWord s.params.charExt k.code))) := by
  have hecho : ((s.spend 1).setInput ks).quiet 3 := (State.quiet_setInput _ ks 3).mpr (State.quiet_spend hquiet)
  have htake : ((((s.spend 1).setInput ks).spend 1).emit [k.code]).quiet 2 :=
    (State.quiet_emit _ _ 2).mpr (State.quiet_spend hecho)
  rw [serviceInRead, bind_of_ok (inRead_taken .inn (State.quiet_mono hquiet (by decide)) hinput),
    bind_of_ok (outByte_quiet k.code (State.quiet_mono hecho (by decide))), takeChar_quiet k.code htake]
  simp

theorem serviceGetc_held {s : State} (hinput : s.input = []) (hcancel : s.cancel = none) :
    serviceGetc s = .error .held (s.setInflight (some .getc)) := by
  rw [serviceGetc, bind_of_error (inRead_held .getc (State.quiet_of_none s hcancel 1) hinput),
    State.spend_of_none hcancel]

theorem serviceInRead_held {s : State} (hinput : s.input = []) (hcancel : s.cancel = none) :
    serviceInRead s = .error .held (s.setInflight (some .inn)) := by
  rw [serviceInRead, bind_of_error (inRead_held .inn (State.quiet_of_none s hcancel 1) hinput),
    State.spend_of_none hcancel]

/-- IN is its prompt and then the rest of the service. -/
theorem serviceIn_of_prompt {s : State} (hquiet : s.quiet s.params.inPrompt.length) :
    serviceIn s = serviceInRead ((s.spend s.params.inPrompt.length).emit s.params.inPrompt) := by
  rw [serviceIn, bind_look, bind_of_ok (outBytes_quiet _ hquiet)]

/-! ### The instructions -/

/-- Settles O32: the entry, then the service in the state after it, whose input and CHAR_EXT are those of the start. -/
theorem getcResult : Obligations.GetcResult := by
  intro s k ks hinput hquiet v
  have hinput' : ((s.spend 1).setReg linkReg s.pc).input = k :: ks := hinput
  rw [exec_trapGetc, perform_trapTo_quiet _ (State.quiet_mono hquiet (by decide)),
    perform_of_ok (serviceGetc_taken hinput' (quiet_after_trapEntry hquiet))]
  simp [v, linkReg, serviceReg]

/-- IN with a character to come, from its prompt on. -/
theorem serviceIn_taken {s : State} {k : Key} {ks : List Key} (hinput : s.input = k :: ks)
    (hquiet : s.quiet (s.params.inPrompt.length + 4)) :
    serviceIn s = .ok () (((((s.spend (s.params.inPrompt.length + 4)).emit (s.params.inPrompt ++ [k.code])).setInput
      ks).setReg serviceReg (charToWord s.params.charExt k.code)).setCond
        (condOf (charToWord s.params.charExt k.code))) := by
  have hinput' : ((s.spend s.params.inPrompt.length).emit s.params.inPrompt).input = k :: ks := hinput
  have hquiet' : ((s.spend s.params.inPrompt.length).emit s.params.inPrompt).quiet 4 :=
    (State.quiet_emit _ _ 4).mpr (State.quiet_spend hquiet)
  rw [serviceIn_of_prompt (State.quiet_mono hquiet (Nat.le_add_right _ _)), serviceInRead_taken hinput' hquiet',
    State.spend_emit_comm, State.spend_spend, ← State.emit_emit]
  rfl

/-- Settles O34: the entry, then the service in the state after it, whose prompt is that of the start. -/
theorem inResult : Obligations.InResult := by
  intro s k ks hinput hquiet v
  have hcount : 1 + (s.params.inPrompt.length + 4) = s.params.inPrompt.length + 5 := by omega
  have hinput' : ((s.spend 1).setReg linkReg s.pc).input = k :: ks := hinput
  have hquiet' : ((s.spend 1).setReg linkReg s.pc).quiet (s.params.inPrompt.length + 4) :=
    quiet_after_trapEntry (hcount ▸ hquiet)
  rw [exec_trapIn, perform_trapTo_quiet _ (State.quiet_mono hquiet (by omega)),
    perform_of_ok (serviceIn_taken hinput' hquiet'), State.spend_setReg_comm, State.spend_spend]
  simp only [State.setReg_params, State.spend_params, hcount]
  rfl

theorem unknownTrap_of_fault (w : Word) {s : State} (hpolicy : s.params.unknownTrap = .fault) :
    unknownTrap w s = raiseFault .unknownTrap w s := by
  rw [unknownTrap, bind_look, hpolicy]

theorem unknownTrap_of_noop (w : Word) {s : State} (hpolicy : s.params.unknownTrap = .noop) :
    unknownTrap w s = .ok () s := by
  rw [unknownTrap, bind_look, hpolicy]
  rfl

/-- Settles O42: after the entry the policy decides between raising the fault and ending the rule. -/
theorem unknownTrapResult : Obligations.UnknownTrapResult := by
  intro ign vec s hquiet
  have hentry : ((s.spend 1).setReg linkReg s.pc).quiet 1 := quiet_after_trapEntry hquiet
  rw [exec_trapOther, perform_trapTo_quiet _ (State.quiet_mono hquiet (by decide))]
  constructor
  · intro hpolicy
    have hpolicy' : ((s.spend 1).setReg linkReg s.pc).params.unknownTrap = .fault := hpolicy
    rw [perform_of_error ((unknownTrap_of_fault _ hpolicy').trans (raiseFault_quiet _ _ hentry)),
      State.spend_setReg_comm, State.spend_spend]
    rfl
  · intro hpolicy
    exact perform_of_ok (unknownTrap_of_noop _ hpolicy)

/-! ### The wait (R91) -/

/-- A step that goes on with GETC or IN while there is still nothing to read comes back to the same state. -/
theorem step_of_held {s : State} (hinput : s.input = []) (hcancel : s.cancel = none) (hrun : s.run = .running)
    (hheld : s.inflight = some .getc ∨ s.inflight = some .inn) : step s = .next s := by
  have hinput' : (s.setInflight none).input = [] := hinput
  have hcancel' : (s.setInflight none).cancel = none := hcancel
  rcases hheld with hp | hp
  · rw [step_of_inflight hrun hp, resume, serviceRest, perform_of_error (serviceGetc_held hinput' hcancel'),
      State.setInflight_setInflight, ← hp]
    rfl
  · rw [step_of_inflight hrun hp, resume, serviceRest, perform_of_error (serviceInRead_held hinput' hcancel'),
      State.setInflight_setInflight, ← hp]
    rfl

theorem serviceIn_held {s : State} (hinput : s.input = []) (hcancel : s.cancel = none) :
    serviceIn s = .error .held ((s.emit s.params.inPrompt).setInflight (some .inn)) := by
  have hinput' : (s.emit s.params.inPrompt).input = [] := hinput
  have hcancel' : (s.emit s.params.inPrompt).cancel = none := hcancel
  rw [serviceIn_of_prompt (State.quiet_of_none s hcancel _), State.spend_of_none hcancel,
    serviceInRead_held hinput' hcancel']

/-- Settles O35: the service is held in the state after the entry, for IN after the prompt too. -/
theorem inputWaitIsHeld : Obligations.InputWaitIsHeld := by
  intro s hinput hcancel
  have hentry : ((s.spend 1).setReg linkReg s.pc) = s.setReg 7 s.pc := by rw [State.spend_of_none hcancel]; rfl
  have hinput' : (s.setReg 7 s.pc).input = [] := hinput
  have hcancel' : (s.setReg 7 s.pc).cancel = none := hcancel
  refine ⟨?_, ?_, step_of_held hinput hcancel⟩
  · rw [exec_trapGetc, perform_trapTo_quiet _ (State.quiet_of_none s hcancel 1), hentry,
      perform_of_error (serviceGetc_held hinput' hcancel')]
  · rw [exec_trapIn, perform_trapTo_quiet _ (State.quiet_of_none s hcancel 1), hentry,
      perform_of_error (serviceIn_held hinput' hcancel')]
    rfl

/-- Settles O36: the rest of the service, in the state whose one character is the one supplied. -/
theorem inputWaitLifts : Obligations.InputWaitLifts := by
  intro s c hinput hcancel hrun v
  have hrun' : (s.hostKey c).run = .running := hrun
  have hkey : ((s.hostKey c).setInflight none).input = [⟨0, c⟩] := by simp [State.hostKey, hinput]
  have hcancel' : ((s.hostKey c).setInflight none).cancel = none := hcancel
  have hquiet (k : Nat) : ((s.hostKey c).setInflight none).quiet k := State.quiet_of_none _ hcancel' k
  have hconsumed : ((s.hostKey c).setInflight none).setInput [] = s.setInflight none := by
    rw [← hinput]
    rfl
  constructor
  · intro hp
    rw [step_of_inflight hrun' hp, resume, serviceRest, perform_of_ok (serviceGetc_taken hkey (hquiet 3)),
      State.spend_of_none hcancel', hconsumed]
    rfl
  · intro hp
    rw [step_of_inflight hrun' hp, resume, serviceRest, perform_of_ok (serviceInRead_taken hkey (hquiet 4)),
      State.spend_of_none hcancel', hconsumed]
    rfl

end Sys2Proof.Machine
end

section
/-! PUTS and PUTSP (44_trap.md R121, R122, R125). Both are the string loop from the address in R0, with their own bytes for
each word and their own service to stay in flight as; so each law is proved once, of the loop. -/

namespace Sys2Proof.Machine

/-- The statements of a string service: the loop from the address in R0. -/
def stringFrom (bytes : Word → List Byte) (again : Word → Service) : Exec Unit := do
  stringLoop bytes again stringReads (← look (·.reg serviceReg))

/-- The bytes PUTS emits for one word (R121). -/
def plainBytes (w : Word) : List Byte := [lowByte w]

theorem exec_trapPuts (s : State) : exec .trapPuts s = perform (trapTo (stringFrom plainBytes .puts)) s := rfl

theorem exec_trapPutsp (s : State) : exec .trapPutsp s = perform (trapTo (stringFrom packedBytes .putsp)) s := rfl

theorem serviceRest_puts (a : Word) : serviceRest (.puts a) = stringLoop plainBytes .puts stringReads a := rfl

theorem serviceRest_putsp (a : Word) : serviceRest (.putsp a) = stringLoop packedBytes .putsp stringReads a := rfl

variable {bytes : Word → List Byte} {again : Word → Service} {s : State} {a : Word}

/-- After the entry, which writes R7 alone, the string begins where it did. -/
theorem stringFrom_after_trapEntry (s : State) (v : Word) : stringFrom bytes again (s.setReg linkReg v) =
    stringLoop bytes again stringReads (s.reg serviceReg) (s.setReg linkReg v) := by
  rw [stringFrom, bind_look, State.reg_setReg_of_ne s (by decide) v]

/-! ### A string with an end -/

theorem perform_stringFrom_of_string {ws : List Word} (h : s.holdsString (s.reg serviceReg) ws)
    (hquiet : s.quiet ((ws.flatMap bytes).length + ws.length + 2)) :
    perform (trapTo (stringFrom bytes again)) s =
      .next (((s.spend ((ws.flatMap bytes).length + ws.length + 2)).setReg linkReg s.pc).emit (ws.flatMap bytes)) := by
  have hcount : 1 + ((ws.flatMap bytes).length + ws.length + 1) = (ws.flatMap bytes).length + ws.length + 2 := by omega
  have hquiet' : ((s.spend 1).setReg linkReg s.pc).quiet ((ws.flatMap bytes).length + ws.length + 1) :=
    quiet_after_trapEntry (hcount ▸ hquiet)
  have hstring : ((s.spend 1).setReg linkReg s.pc).holdsString (s.reg serviceReg) ws := h
  rw [perform_trapTo_quiet _ (State.quiet_mono hquiet (by omega)),
    perform_of_ok ((stringFrom_after_trapEntry _ _).trans
      (stringLoop_of_string (State.holdsString_length h) hstring hquiet')),
    State.spend_setReg_comm, State.spend_spend, hcount]

/-- Settles O38: one byte for each word, so the actions are two for each word, the entry and the read of the zero word. -/
theorem putsResult : Obligations.PutsResult := by
  intro s ws hwords hzero hquiet
  have hbytes : ws.flatMap plainBytes = ws.map lowByte := List.map_eq_flatMap.symm
  have hcount : (ws.flatMap plainBytes).length + ws.length + 2 = 2 * ws.length + 2 := by
    rw [hbytes, List.length_map]
    omega
  rw [exec_trapPuts, perform_stringFrom_of_string ⟨hwords, hzero⟩ (hcount ▸ hquiet), hcount, hbytes]
  rfl

/-- Settles O39: the packed bytes of each word. -/
theorem putspResult : Obligations.PutspResult := by
  intro s ws hwords hzero bytes hquiet
  have hbytes : ws.flatMap packedBytes = bytes := congrArg (fun f => ws.flatMap f) (funext packedBytes_eq)
  rw [exec_trapPutsp, perform_stringFrom_of_string ⟨hwords, hzero⟩ (by rwa [hbytes]), hbytes]
  rfl

/-! ### Memory with some zero word -/

theorem perform_stringFrom_of_zero (hzero : ∃ b, s.word b = 0x0000) (hcancel : s.cancel = none) :
    ∃ bs, perform (trapTo (stringFrom bytes again)) s = .next ((s.setReg linkReg s.pc).emit bs) := by
  obtain ⟨b, hb⟩ := hzero
  have hb' : (s.setReg linkReg s.pc).word b = 0x0000 := hb
  obtain ⟨bs, hloop⟩ : ∃ bs, stringLoop bytes again stringReads (s.reg serviceReg) (s.setReg linkReg s.pc) =
      .ok () ((s.setReg linkReg s.pc).emit bs) :=
    stringLoop_of_zero hb' hcancel (s.reg serviceReg)
  refine ⟨bs, ?_⟩
  rw [perform_trapTo_quiet _ (State.quiet_of_none s hcancel 1), State.spend_of_none hcancel,
    perform_of_ok ((stringFrom_after_trapEntry _ _).trans hloop)]

/-- The step of a string service in flight ends it, having only emitted. -/
theorem step_of_string_of_zero (hrest : serviceRest (again a) = stringLoop bytes again stringReads a)
    (hzero : ∃ b, s.word b = 0x0000) (hcancel : s.cancel = none) (hrun : s.run = .running)
    (hp : s.inflight = some (again a)) : ∃ bs, step s = .next ((s.setInflight none).emit bs) := by
  obtain ⟨b, hb⟩ := hzero
  have hb' : (s.setInflight none).word b = 0x0000 := hb
  obtain ⟨bs, hloop⟩ : ∃ bs, stringLoop bytes again stringReads a (s.setInflight none) =
      .ok () ((s.setInflight none).emit bs) := stringLoop_of_zero hb' hcancel a
  refine ⟨bs, ?_⟩
  rw [step_of_inflight hrun hp, resume, hrest, perform_of_ok hloop]

/-! ### Memory with no zero word -/

/-- The bytes of all 65536 words from `a` on. -/
def allBytes (bytes : Word → List Byte) (s : State) (a : Word) : List Byte :=
  (List.range 65536).flatMap fun i => bytes (s.word (a + BitVec.ofNat 16 i))

theorem length_le_length_flatMap {α β : Type} (f : α → List β) (hf : ∀ x, f x ≠ []) (l : List α) :
    l.length ≤ (l.flatMap f).length := by
  induction l with
  | nil => simp
  | cons x l ih =>
    have := List.length_pos_iff.mpr (hf x)
    simp only [List.flatMap_cons, List.length_append, List.length_cons]
    omega

theorem le_length_allBytes (hbytes : ∀ w, bytes w ≠ []) (s : State) (a : Word) :
    65536 ≤ (allBytes bytes s a).length := by
  have h := length_le_length_flatMap (fun i => bytes (s.word (a + BitVec.ofNat 16 i))) (fun _ => hbytes _)
    (List.range 65536)
  rwa [List.length_range] at h

theorem perform_stringFrom_of_no_zero (hnone : ∀ b, s.word b ≠ 0x0000) (hcancel : s.cancel = none) :
    perform (trapTo (stringFrom bytes again)) s = .next
      (((s.setReg linkReg s.pc).emit (allBytes bytes s (s.reg serviceReg))).setInflight
        (some (again (s.reg serviceReg)))) := by
  have hnone' : ∀ b, (s.setReg linkReg s.pc).word b ≠ 0x0000 := hnone
  rw [perform_trapTo_quiet _ (State.quiet_of_none s hcancel 1), State.spend_of_none hcancel,
    perform_of_error ((stringFrom_after_trapEntry _ _).trans (stringLoop_hang hnone' hcancel _))]
  rfl

/-- The block hangs in a string service (R122): it runs with the service in flight, no word is zero, and no cancellation
is raised. -/
structure Hangs (p : Service) (s : State) : Prop where
  run : s.run = .running
  inflight : s.inflight = some p
  cancel : s.cancel = none
  noZero : ∀ b, s.word b ≠ 0x0000

theorem Hangs.emit {p : Service} (h : Hangs p s) (bs : List Byte) : Hangs p (s.emit bs) :=
  ⟨h.run, h.inflight, h.cancel, h.noZero⟩

theorem allBytes_setInflight (p : Option Service) : allBytes bytes (s.setInflight p) a = allBytes bytes s a := by
  simp only [allBytes, State.word_setInflight]

theorem State.emit_setInflight_restore (s : State) (bs : List Byte) :
    ((s.setInflight none).emit bs).setInflight s.inflight = s.emit bs := rfl

/-- A step of a block that hangs emits the bytes of all of memory and changes nothing else. -/
theorem Hangs.step (h : Hangs (again a) s) (hrest : serviceRest (again a) = stringLoop bytes again stringReads a) :
    step s = .next (s.emit (allBytes bytes s a)) := by
  have hnone : ∀ b, (s.setInflight none).word b ≠ 0x0000 := h.noZero
  have hcancel : (s.setInflight none).cancel = none := h.cancel
  have hloop : stringLoop bytes again stringReads a (s.setInflight none) =
      .error .held (((s.setInflight none).emit (allBytes bytes (s.setInflight none) a)).setInflight (some (again a))) :=
    stringLoop_hang hnone hcancel a
  rw [step_of_inflight h.run h.inflight, resume, hrest, perform_of_error hloop, ← h.inflight,
    State.emit_setInflight_restore, allBytes_setInflight]

/-- So it hangs after any number of steps, each of which has emitted at least one byte for each word. -/
theorem Hangs.run_core (hbytes : ∀ w, bytes w ≠ []) (hrest : serviceRest (again a) = stringLoop bytes again stringReads a) :
    ∀ (k : Nat) {s : State}, Hangs (again a) s → ∃ t, Sys2Proof.core.run k s = .next t ∧ Hangs (again a) t ∧
      s.out.length + 65536 * k ≤ t.out.length
  | 0, s, h => ⟨s, rfl, h, Nat.le_refl _⟩
  | k + 1, s, h => by
    obtain ⟨t, hrun, hhangs, hlen⟩ := Hangs.run_core hbytes hrest k (h.emit (allBytes bytes s a))
    refine ⟨t, (Run.of_step (h.step hrest) k).trans hrun, hhangs, ?_⟩
    calc s.out.length + 65536 * (k + 1) = s.out.length + 65536 + 65536 * k := by
          rw [Nat.mul_succ, Nat.add_comm (65536 * k), ← Nat.add_assoc]
      _ ≤ s.out.length + (allBytes bytes s a).length + 65536 * k :=
        Nat.add_le_add_right (Nat.add_le_add_left (le_length_allBytes hbytes s a) _) _
      _ = (s.emit (allBytes bytes s a)).out.length + 65536 * k := by rw [State.emit_out, List.length_append]
      _ ≤ t.out.length := hlen

theorem allBytes_plainBytes (s : State) (a : Word) :
    allBytes plainBytes s a = (List.range 65536).map fun i => lowByte (s.word (a + BitVec.ofNat 16 i)) :=
  List.map_eq_flatMap.symm

theorem allBytes_packedBytes (s : State) (a : Word) : allBytes packedBytes s a = (List.range 65536).flatMap fun i =>
    lowByte (s.word (a + BitVec.ofNat 16 i)) ::
      (if highByte (s.word (a + BitVec.ofNat 16 i)) = 0x00 then [] else [highByte (s.word (a + BitVec.ofNat 16 i))]) := by
  simp only [allBytes, packedBytes_eq]

theorem plainBytes_ne_nil (w : Word) : plainBytes w ≠ [] := List.cons_ne_nil _ _

theorem packedBytes_ne_nil (w : Word) : packedBytes w ≠ [] := by
  rw [packedBytes_eq]
  exact List.cons_ne_nil _ _

/-- Settles O40: with a zero word the loop ends from any address; with none it comes back to where it began, and a step
that goes on with it does the same again. -/
theorem stringServicesEndOrHang : Obligations.StringServicesEndOrHang := by
  intro s a hcancel word plain packed
  have hplain : allBytes plainBytes s a = plain := allBytes_plainBytes s a
  have hpacked : allBytes packedBytes s a = packed := allBytes_packedBytes s a
  constructor
  · intro hzero
    refine ⟨fun hidle => ?_, fun hidle => ?_, fun hrun hp => ?_⟩
    · obtain ⟨bs, h⟩ := perform_stringFrom_of_zero hzero hcancel
      exact ⟨_, (exec_trapPuts s).trans h, hidle, rfl⟩
    · obtain ⟨bs, h⟩ := perform_stringFrom_of_zero hzero hcancel
      exact ⟨_, (exec_trapPutsp s).trans h, hidle, rfl⟩
    · rcases hp with hp | hp
      · obtain ⟨bs, h⟩ := step_of_string_of_zero (serviceRest_puts a) hzero hcancel hrun hp
        exact ⟨_, h, rfl, hrun⟩
      · obtain ⟨bs, h⟩ := step_of_string_of_zero (serviceRest_putsp a) hzero hcancel hrun hp
        exact ⟨_, h, rfl, hrun⟩
  · intro hnone
    have hangs {p : Service} (hrun : s.run = .running) (hp : s.inflight = some p) : Hangs p s :=
      ⟨hrun, hp, hcancel, hnone⟩
    refine ⟨fun ha => ?_, fun ha => ?_, fun hrun hp => ?_, fun hrun hp => ?_, fun hrun hp k => ?_⟩
    · have ha' : s.reg serviceReg = a := ha
      rw [exec_trapPuts, perform_stringFrom_of_no_zero hnone hcancel, ha', hplain]
      rfl
    · have ha' : s.reg serviceReg = a := ha
      rw [exec_trapPutsp, perform_stringFrom_of_no_zero hnone hcancel, ha', hpacked]
      rfl
    · rw [(hangs hrun hp).step (serviceRest_puts a), hplain]
    · rw [(hangs hrun hp).step (serviceRest_putsp a), hpacked]
    · rcases hp with hp | hp
      · obtain ⟨t, ht, hhangs, hlen⟩ := (hangs hrun hp).run_core plainBytes_ne_nil (serviceRest_puts a) k
        exact ⟨t, ht, hhangs.run, hhangs.inflight.trans hp.symm, hlen⟩
      · obtain ⟨t, ht, hhangs, hlen⟩ := (hangs hrun hp).run_core packedBytes_ne_nil (serviceRest_putsp a) k
        exact ⟨t, ht, hhangs.run, hhangs.inflight.trans hp.symm, hlen⟩

end Sys2Proof.Machine
end

section
/-! The frames (10_state.md R20 to R29, 20_memory.md R48 to R53): each is one relation carried through all instructions by
`exec_keeps`, for a load or store by the addresses it accesses. -/

namespace Sys2Proof

/-! ### What the instruction classes are -/

theorem Instr.takesInput_iff (i : Instr) : i.takesInput = true ↔ i = .trapGetc ∨ i = .trapIn := by
  cases i <;> simp [Instr.takesInput]

theorem Instr.eq_of_mayHold {i : Instr} {p : Machine.Service} (h : i.mayHold p) :
    i = .trapGetc ∨ i = .trapIn ∨ i = .trapPuts ∨ i = .trapPutsp := by
  cases i <;> simp_all [Instr.mayHold]

theorem Instr.eq_of_mayFault {i : Instr} {kind : Machine.FaultKind} {info : Word} (h : i.mayFault kind info) :
    info = encode i ∧ ((kind = .unknownTrap ∧ ∃ ign vec, i = .trapOther ign vec) ∨
      (kind = .reservedOpcode ∧ ∃ ign, i = .rti ign ∨ i = .res ign)) := by
  cases i <;> simp_all [Instr.mayFault]

end Sys2Proof

namespace Sys2Proof.Machine

variable {R Q : State → State → Prop} {i : Instr} {s t : State}

/-! ### Loads and stores, by the addresses they access -/

theorem Keeps.loadFrom (hR : Kept R Q) {dr : Reg} {a : Word} (hreg : ∀ s v, R s (s.setReg dr v))
    (hcond : ∀ s c, R s (s.setCond c)) (hread : ∀ s, R s (s.afterRead a)) : Keeps R Q (loadFrom dr a) :=
  Keeps.bind hR (Keeps.memRead hR hread) fun _ => Keeps.writeResult hR hreg hcond

theorem Keeps.storeTo (hR : Kept R Q) {sr : Reg} {a : Word} (hstore : ∀ s v, R s (s.store a v)) :
    Keeps R Q (storeTo sr a) :=
  Keeps.bind hR (Keeps.look hR _) fun _ => Keeps.act hR fun s => hstore s _

/-- What follows the MemRead of a pointer need keep the relation only for the pointer that was read. -/
theorem Keeps.next_of_pointer (hR : Kept R Q) {a : Word} {rest : Word → Exec Unit} (hread : ∀ s, R s (s.afterRead a))
    (hrest : Keeps R Q (rest (s.readValue a))) (h : perform (Machine.memRead a >>= rest) s = .next t) : R s t ∨ Q s t := by
  have hend := perform_eq_next.mp h
  rcases s.quiet_or_struck with hquiet | hstruck
  · rw [bind_memRead_quiet a rest hquiet] at hend
    have hread' : R s ((s.spend 1).afterRead a) := hR.trans _ _ _ (hR.spend s) (hread _)
    exact (hrest.next (perform_eq_next.mpr hend)).imp (hR.trans _ _ _ hread') (hR.early _ _ _ hread')
  · rw [Machine.memRead, bind_of_error (primitive_struck _ hstruck)] at hend
    exact .inr (hend ▸ hR.cancelled s hstruck)

/-- An instruction that accesses memory: the relation need be kept only by reads of its read addresses and by stores to its
store address. -/
theorem exec_access_keeps (hR : Kept R Q) (hi : i.readsMemory = true ∨ i.storesMemory = true)
    (hreg : ∀ r ∈ writtenRegs i, ∀ s v, R s (s.setReg r v)) (hcond : writesCond i = true → ∀ s c, R s (s.setCond c))
    (hread : ∀ a ∈ readAddresses i s, ∀ u, R u (u.afterRead a))
    (hstore : ∀ a, storeAddress i s = some a → ∀ u v, R u (u.store a v)) (h : exec i s = .next t) : R s t ∨ Q s t := by
  have load {dr : Reg} {a : Word} (hdr : dr ∈ writtenRegs i) (hw : writesCond i = true) (ha : a ∈ readAddresses i s) :
      Keeps R Q (loadFrom dr a) := Keeps.loadFrom hR (hreg dr hdr) (hcond hw) (hread a ha)
  cases i <;> simp only [Instr.readsMemory, Instr.storesMemory, Bool.false_eq_true, or_self, or_true, true_or] at hi
  case ld dr off => exact (load List.mem_cons_self rfl List.mem_cons_self).next ((exec_ld ..).symm.trans h)
  case ldi dr off =>
    exact Keeps.next_of_pointer hR (hread _ List.mem_cons_self)
      (load List.mem_cons_self rfl (List.mem_cons_of_mem _ List.mem_cons_self)) ((exec_ldi ..).symm.trans h)
  case ldr dr b off => exact (load List.mem_cons_self rfl List.mem_cons_self).next ((exec_ldr ..).symm.trans h)
  case st sr off => exact (Keeps.storeTo hR (hstore _ rfl)).next ((exec_st ..).symm.trans h)
  case sti sr off =>
    exact Keeps.next_of_pointer hR (hread _ List.mem_cons_self) (Keeps.storeTo hR (hstore _ rfl))
      ((exec_sti ..).symm.trans h)
  case str sr b off => exact (Keeps.storeTo hR (hstore _ rfl)).next ((exec_str ..).symm.trans h)

/-! ### Parts of the state that an instruction leaves -/

/-- Every action that `i` may take from `s` on leaves the part `f` of the state. Most actions write other fields, so that a
frame names only those of which this takes an argument. -/
structure Leaves {γ : Type} (i : Instr) (s : State) (f : State → γ) : Prop where
  spend : ∀ u, f (u.spend 1) = f u := by intros; rfl
  enterCancelled : ∀ u, f (State.enterCancelled u) = f u := by intros; rfl
  setReg : ∀ r ∈ writtenRegs i, ∀ u v, f (u.setReg r v) = f u := by intros; rfl
  setCond : writesCond i = true → ∀ u c, f (u.setCond c) = f u := by intros; rfl
  setPc : i.isControlTransfer = true → ∀ u v, f (u.setPc v) = f u := by intros; rfl
  afterRead : ∀ a ∈ readAddresses i s, ∀ u, f (u.afterRead a) = f u := by intros; simp
  store : ∀ a, storeAddress i s = some a → ∀ u v, f (u.store a v) = f u := by intros; rfl
  emit : i.emitsOutput = true → ∀ u bs, f (u.emit bs) = f u := by intros; rfl
  setInput : i.takesInput = true → ∀ u ks, f (u.setInput ks) = f u := by intros; rfl
  hold : ∀ p, i.mayHold p → ∀ u, f (u.setInflight (some p)) = f u := by intros; rfl
  setRun : ∀ u r, f (u.setRun r) = f u := by intros; rfl

theorem Leaves.exec_eq {γ : Type} {f : State → γ} (hf : Leaves i s f) (h : exec i s = .next t) : f t = f s := by
  have hR : Kept (fun s t => f t = f s) (fun s t => f t = f s) := Kept.eq f hf.spend hf.enterCancelled
  refine Or.elim ?_ id id
  by_cases hi : i.readsMemory = true ∨ i.storesMemory = true
  · exact exec_access_keeps hR hi hf.setReg hf.setCond hf.afterRead hf.store h
  · obtain ⟨hread, hstore⟩ := not_or.mp hi
    exact exec_keeps hR hf.setReg hf.setCond hf.setPc (fun hr => absurd hr hread) (fun hs => absurd hs hstore) hf.emit
      hf.setInput hf.hold (fun _ u => hf.setRun u _) (fun _ _ _ u => hf.setRun u _) h

/-- Settles O44: the register is a part of the state that only the write of that register touches. -/
theorem registerFrame : Obligations.RegisterFrame := by
  intro i s t h r hr
  have hleaves : Leaves i s (·.reg r) :=
    { setReg := fun q hq u => u.reg_setReg_of_ne fun (hrq : r = q) => hr (hrq ▸ hq) }
  exact hleaves.exec_eq h

/-- Settles O45: no action but the write of the flag touches it. -/
theorem flagFrame : Obligations.FlagFrame := by
  intro i s t h hi
  have hleaves : Leaves i s (·.cond) := { setCond := fun hw => absurd (hw.symm.trans hi) (by decide) }
  exact hleaves.exec_eq h

/-- Settles O46: no action but the write of `pc` touches it. -/
theorem programCounterFrame : Obligations.ProgramCounterFrame := by
  intro i s t h hi
  have hleaves : Leaves i s (·.pc) := { setPc := fun hw => absurd (hw.symm.trans hi) (by decide) }
  exact hleaves.exec_eq h

/-- Settles O47: a MemRead of KBSR_ADDR changes KBSR and KBDR alone, any other MemRead no word, and a store one word. -/
theorem memoryFrame : Obligations.MemoryFrame := by
  intro i s t h a hstored hpolled
  have hread : ∀ b ∈ readAddresses i s, ∀ u : State, (u.afterRead b).word a = u.word a := by
    intro b hb u
    by_cases hkbsr : b = kbsrAddr
    · have hne : ¬ (a = kbsrAddr ∨ a = kbdrAddr) := fun ha => hpolled ha (hkbsr ▸ hb)
      exact u.word_afterRead_of_ne b (fun ha => hne (.inl ha)) fun ha => hne (.inr ha)
    · rw [u.afterRead_of_ne hkbsr]
  have hleaves : Leaves i s (·.word a) :=
    { afterRead := hread
      store := fun b hb u => u.word_store_of_ne fun (hab : a = b) => hstored (hab ▸ hb) }
  exact hleaves.exec_eq h

theorem exec_params (h : exec i s = .next t) : t.params = s.params := by
  have hleaves : Leaves i s (·.params) := {}
  exact hleaves.exec_eq h

theorem exec_inflight (hi : ∀ p, ¬ i.mayHold p) (h : exec i s = .next t) : t.inflight = s.inflight := by
  have hleaves : Leaves i s (·.inflight) := { hold := fun p hp => absurd hp (hi p) }
  exact hleaves.exec_eq h

theorem exec_input (hi : i.takesInput ≠ true) (hpolled : kbsrAddr ∉ readAddresses i s) (h : exec i s = .next t) :
    t.input = s.input := by
  have hleaves : Leaves i s (·.input) :=
    { afterRead := fun b hb u => by rw [u.afterRead_of_ne fun hkbsr => hpolled (hkbsr ▸ hb)]
      setInput := fun hin => absurd hin hi }
  exact hleaves.exec_eq h

/-- Settles O50: one frame for each of the three fields. -/
theorem inputFrame : Obligations.InputFrame := by
  intro i s t h
  refine ⟨exec_params h, fun hgetc hin hpolled => ?_, fun hgetc hin hputs hputsp => ?_⟩
  · exact exec_input (fun hi => (i.takesInput_iff.mp hi).elim hgetc hin) hpolled h
  · refine exec_inflight (fun p hp => ?_) h
    rcases Instr.eq_of_mayHold hp with rfl | rfl | rfl | rfl
    · exact hgetc rfl
    · exact hin rfl
    · exact hputs rfl
    · exact hputsp rfl

/-! ### The output and the run state, which an early end changes too -/

/-- What `exec_keeps` asks of a relation between the states before and after the rule of `i`, or its early end. -/
structure InstrKept (i : Instr) (R Q : State → State → Prop) : Prop extends Kept R Q where
  setReg : ∀ r ∈ writtenRegs i, ∀ s v, R s (s.setReg r v)
  setCond : writesCond i = true → ∀ s c, R s (s.setCond c)
  setPc : i.isControlTransfer = true → ∀ s v, R s (s.setPc v)
  afterRead : i.readsMemory = true → ∀ s a, R s (s.afterRead a)
  store : i.storesMemory = true → ∀ s a v, R s (s.store a v)
  emit : i.emitsOutput = true → ∀ s bs, R s (s.emit bs)
  setInput : i.takesInput = true → ∀ s ks, R s (s.setInput ks)
  hold : ∀ p, i.mayHold p → ∀ s, Q s (s.setInflight (some p))
  halt : i = .trapHalt → ∀ s, R s (s.setRun .halted)
  fault : ∀ kind info, i.mayFault kind info → ∀ s, Q s (s.setRun (.faulted kind info))

theorem InstrKept.exec (hR : InstrKept i R Q) (h : exec i s = .next t) : R s t ∨ Q s t :=
  exec_keeps hR.toKept hR.setReg hR.setCond hR.setPc hR.afterRead hR.store hR.emit hR.setInput hR.hold hR.halt hR.fault h

/-- No cancellation is raised by an instruction. -/
def CancelKept (s t : State) : Prop := s.cancel = none → t.cancel = none

theorem CancelKept.spend (s : State) : CancelKept s (s.spend 1) := fun h => by rw [State.spend_of_none h, h]

theorem CancelKept.of_eq (h : t.cancel = s.cancel) : CancelKept s t := fun hs => h.trans hs

/-- The output and its parameters at the end of a rule that does not emit. -/
def OutKept (s t : State) : Prop := t.out = s.out ∧ t.params = s.params ∧ CancelKept s t

/-- The output where a rule that does not emit may have been cut short. -/
def OutKeptOrNotice (s t : State) : Prop :=
  t.out = s.out ∨ (s.cancel ≠ none ∧ t.run = .cancelled ∧ t.out = s.out ++ s.params.cancelNotice)

theorem OutKept.kept : Kept OutKept OutKeptOrNotice where
  refl _ := ⟨rfl, rfl, id⟩
  trans _ _ _ := fun ⟨ho, hp, hc⟩ ⟨ho', hp', hc'⟩ => ⟨ho'.trans ho, hp'.trans hp, hc' ∘ hc⟩
  early s t u := by
    rintro ⟨ho, hp, hc⟩ (h | ⟨hcancel, hrun, hout⟩)
    · exact .inl (h.trans ho)
    · exact .inr ⟨fun hs => hcancel (hc hs), hrun, by rw [hout, ho, hp]⟩
  spend s := ⟨rfl, rfl, CancelKept.spend s⟩
  cancelled s hs := .inr ⟨by simp [hs], rfl, rfl⟩

theorem OutKept.instrKept (hi : i.emitsOutput = false) : InstrKept i OutKept OutKeptOrNotice where
  toKept := OutKept.kept
  setReg _ _ _ _ := ⟨rfl, rfl, id⟩
  setCond _ _ _ := ⟨rfl, rfl, id⟩
  setPc _ _ _ := ⟨rfl, rfl, id⟩
  afterRead _ s a := ⟨s.afterRead_out a, s.afterRead_params a, CancelKept.of_eq (s.afterRead_cancel a)⟩
  store _ _ _ _ := ⟨rfl, rfl, id⟩
  emit hw := absurd (hw.symm.trans hi) (by decide)
  setInput _ _ _ := ⟨rfl, rfl, id⟩
  hold _ _ _ := .inl rfl
  halt _ _ := ⟨rfl, rfl, id⟩
  fault _ _ _ _ := .inl rfl

/-- Settles O48: a rule without OutByte leaves the output, and an early end by cancellation appends the notice. -/
theorem outputFrame : Obligations.OutputFrame :=
  fun _ _ _ h hi => ((OutKept.instrKept hi).exec h).elim (fun ⟨hout, _⟩ => .inl hout) id

/-- The run state at the end of the rule of `i`. -/
def RunKept (i : Instr) (s t : State) : Prop :=
  (t.run = s.run ∨ (t.run = .halted ∧ i = .trapHalt)) ∧ CancelKept s t

/-- The run state where the rule of `i` may have ended early. -/
def RunKeptOrEnded (i : Instr) (s t : State) : Prop :=
  t.run = s.run ∨ (t.run = .cancelled ∧ s.cancel ≠ none) ∨ (t.run = .halted ∧ i = .trapHalt) ∨
    ∃ kind info, i.mayFault kind info ∧ t.run = .faulted kind info

theorem RunKept.kept (i : Instr) : Kept (RunKept i) (RunKeptOrEnded i) where
  refl _ := ⟨.inl rfl, id⟩
  trans s t u := by
    rintro ⟨hrun, hc⟩ ⟨hrun', hc'⟩
    refine ⟨?_, hc' ∘ hc⟩
    rcases hrun' with hrun' | hhalt
    · rwa [hrun']
    · exact .inr hhalt
  early s t u := by
    rintro ⟨hrun, hc⟩ (hsame | ⟨hrun', hcancel⟩ | hhalt | hfault)
    · exact hrun.imp hsame.trans fun ⟨hhalt, hi⟩ => .inr (.inl ⟨hsame.trans hhalt, hi⟩)
    · exact .inr (.inl ⟨hrun', fun hs => hcancel (hc hs)⟩)
    · exact .inr (.inr (.inl hhalt))
    · exact .inr (.inr (.inr hfault))
  spend s := ⟨.inl rfl, CancelKept.spend s⟩
  cancelled s hs := .inr (.inl ⟨rfl, by simp [hs]⟩)

theorem RunKept.of_eq (hrun : t.run = s.run) (hcancel : t.cancel = s.cancel) : RunKept i s t :=
  ⟨.inl hrun, CancelKept.of_eq hcancel⟩

theorem RunKept.instrKept (i : Instr) : InstrKept i (RunKept i) (RunKeptOrEnded i) where
  toKept := RunKept.kept i
  setReg _ _ _ _ := .of_eq rfl rfl
  setCond _ _ _ := .of_eq rfl rfl
  setPc _ _ _ := .of_eq rfl rfl
  afterRead _ s a := .of_eq (s.afterRead_run a) (s.afterRead_cancel a)
  store _ _ _ _ := .of_eq rfl rfl
  emit _ _ _ := .of_eq rfl rfl
  setInput _ _ _ := .of_eq rfl rfl
  hold _ _ _ := .inl rfl
  halt hi _ := ⟨.inr ⟨rfl, hi⟩, id⟩
  fault kind info hfault _ := .inr (.inr (.inr ⟨kind, info, hfault, rfl⟩))

theorem exec_run (h : exec i s = .next t) : RunKeptOrEnded i s t :=
  ((RunKept.instrKept i).exec h).elim (fun ⟨hrun, _⟩ => hrun.imp id fun hhalt => .inr (.inl hhalt)) id

/-- Cancellation before a TRAP's first action. -/
theorem perform_trapTo_struck (service : Exec Unit) (hstruck : s.cancel = some 0) :
    perform (trapTo service) s = .next s.enterCancelled := by
  have hsave : saveReturn s = .error .cancelled s.enterCancelled := by
    rw [saveReturn, bind_look, setReg, act, primitive_struck _ hstruck]
  exact perform_of_error (bind_of_error hsave)

/-- Under policy `noop` an unknown vector raises no fault. -/
theorem exec_trapOther_run_of_noop {ign : BitVec 4} {vec : BitVec 8} (hpolicy : s.params.unknownTrap = .noop)
    (h : exec (.trapOther ign vec) s = .next t) : t.run = s.run ∨ (t.run = .cancelled ∧ s.cancel ≠ none) := by
  rw [exec_trapOther] at h
  rcases s.quiet_or_struck with hquiet | hstruck
  · have hpolicy' : ((s.spend 1).setReg linkReg s.pc).params.unknownTrap = .noop := hpolicy
    rw [perform_trapTo_quiet _ hquiet, perform_of_ok (unknownTrap_of_noop _ hpolicy')] at h
    exact .inl (Host.Outcome.next.inj h ▸ rfl)
  · rw [perform_trapTo_struck _ hstruck] at h
    exact .inr (Host.Outcome.next.inj h ▸ ⟨rfl, by simp [hstruck]⟩)

/-- Settles O49: the early ends of a rule, with the policy of an unknown vector read from the start. -/
theorem runStateFrame : Obligations.RunStateFrame := by
  intro i s t h
  rcases exec_run h with hsame | hcancelled | hhalted | ⟨kind, info, hfault, hrun⟩
  · exact .inl hsame
  · exact .inr (.inl hcancelled)
  · exact .inr (.inr (.inl hhalted))
  · obtain ⟨rfl, ⟨rfl, ign, vec, rfl⟩ | ⟨rfl, hi⟩⟩ := Instr.eq_of_mayFault hfault
    · cases hpolicy : s.params.unknownTrap with
      | fault => exact .inr (.inr (.inr (.inl ⟨hrun, rfl, ign, vec, rfl⟩)))
      | noop => exact (exec_trapOther_run_of_noop hpolicy h).imp id .inl
    · exact .inr (.inr (.inr (.inr ⟨hrun, hi⟩)))

end Sys2Proof.Machine
end

section
/-! What the services can do (44_trap.md R117 to R126), from which come the frame of every TRAP and the laws that hold along
runs: the invariant, and that the output only grows. -/

namespace Sys2Proof.Machine

variable {R Q : State → State → Prop} {i : Instr} {s t : State}

/-! ### The services -/

/-- What a relation must satisfy to be carried through a service: to be kept by the write of R0 and the flag, by the ports
and by the hold. No service writes another register, `pc` or memory. -/
structure ServiceKept (R Q : State → State → Prop) : Prop extends Kept R Q where
  reg : ∀ s v, R s (s.setReg serviceReg v)
  cond : ∀ s c, R s (s.setCond c)
  emit : ∀ s bs, R s (s.emit bs)
  input : ∀ s ks, R s (s.setInput ks)
  hold : ∀ s p, Q s (s.setInflight (some p))

namespace ServiceKept

theorem takeChar (h : ServiceKept R Q) (c : Byte) : Keeps R Q (takeChar c) := Keeps.takeChar h.toKept h.reg h.cond

theorem inRead (h : ServiceKept R Q) (p : Service) : Keeps R Q (inRead p) :=
  Keeps.inRead h.toKept (fun s => h.hold s p) h.input

theorem outByte (h : ServiceKept R Q) (b : Byte) : Keeps R Q (outByte b) := Keeps.act h.toKept fun s => h.emit s [b]

theorem outBytes (h : ServiceKept R Q) (bs : List Byte) : Keeps R Q (outBytes bs) := Keeps.outBytes h.toKept h.emit bs

theorem serviceGetc (h : ServiceKept R Q) : Keeps R Q serviceGetc := Keeps.bind h.toKept (h.inRead .getc) h.takeChar

theorem serviceOut (h : ServiceKept R Q) : Keeps R Q serviceOut :=
  Keeps.bind h.toKept (Keeps.look h.toKept _) fun _ => h.outByte _

theorem serviceInRead (h : ServiceKept R Q) : Keeps R Q serviceInRead :=
  Keeps.bind h.toKept (h.inRead .inn) fun c => Keeps.bind h.toKept (h.outByte c) fun _ => h.takeChar c

theorem serviceIn (h : ServiceKept R Q) : Keeps R Q serviceIn :=
  Keeps.bind h.toKept (Keeps.look h.toKept _) fun _ => Keeps.bind h.toKept (h.outBytes _) fun _ => h.serviceInRead

theorem stringLoop (h : ServiceKept R Q) (bytes : Word → List Byte) (again : Word → Service) (n : Nat) (a : Word) :
    Keeps R Q (stringLoop bytes again n a) :=
  Keeps.stringLoop h.toKept h.emit (fun s a => h.hold s (again a)) n a

theorem stringFrom (h : ServiceKept R Q) (bytes : Word → List Byte) (again : Word → Service) :
    Keeps R Q (stringFrom bytes again) :=
  Keeps.bind h.toKept (Keeps.look h.toKept _) fun a => h.stringLoop bytes again stringReads a

theorem serviceHalt (h : ServiceKept R Q) (hrun : ∀ s r, R s (s.setRun r)) : Keeps R Q serviceHalt :=
  Keeps.bind h.toKept (Keeps.look h.toKept _) fun _ => Keeps.bind h.toKept (h.outBytes _) fun _ =>
    Keeps.act h.toKept fun s => hrun s .halted

theorem unknownTrap (h : ServiceKept R Q) (hrun : ∀ s r, Q s (s.setRun r)) (w : Word) : Keeps R Q (unknownTrap w) := by
  refine Keeps.bind h.toKept (Keeps.look h.toKept _) fun policy => ?_
  cases policy with
  | fault => exact Keeps.raiseFault h.toKept fun s => hrun s _
  | noop => exact Keeps.pure h.toKept ()

theorem serviceRest (h : ServiceKept R Q) : ∀ p, Keeps R Q (serviceRest p)
  | .getc => h.serviceGetc
  | .inn => h.serviceInRead
  | .puts a => h.stringLoop _ _ _ a
  | .putsp a => h.stringLoop _ _ _ a

end ServiceKept

/-- Every TRAP is the entry and a service, of which each relation holds that is kept by what services do and by changes of
the run state. -/
theorem exists_service_of_isTrap (hi : i.isTrap = true) : ∃ service, (∀ s, exec i s = perform (trapTo service) s) ∧
    ∀ {R : State → State → Prop}, ServiceKept R R → (∀ s r, R s (s.setRun r)) → Keeps R R service := by
  cases i <;> simp only [Instr.isTrap, Bool.false_eq_true] at hi
  case trapGetc => exact ⟨_, exec_trapGetc, fun h _ => h.serviceGetc⟩
  case trapOut => exact ⟨_, exec_trapOut, fun h _ => h.serviceOut⟩
  case trapPuts => exact ⟨_, exec_trapPuts, fun h _ => h.stringFrom _ _⟩
  case trapIn => exact ⟨_, exec_trapIn, fun h _ => h.serviceIn⟩
  case trapPutsp => exact ⟨_, exec_trapPutsp, fun h _ => h.stringFrom _ _⟩
  case trapHalt => exact ⟨_, exec_trapHalt, fun h hrun => h.serviceHalt hrun⟩
  case trapOther ign vec => exact ⟨_, exec_trapOther ign vec, fun h hrun => h.unknownTrap hrun _⟩

/-- The link register and `pc`, which no service writes. -/
def LinkKept (s t : State) : Prop := t.reg linkReg = s.reg linkReg ∧ t.pc = s.pc

theorem LinkKept.serviceKept : ServiceKept LinkKept LinkKept where
  refl _ := ⟨rfl, rfl⟩
  trans _ _ _ := fun ⟨hreg, hpc⟩ ⟨hreg', hpc'⟩ => ⟨hreg'.trans hreg, hpc'.trans hpc⟩
  early _ _ _ := fun ⟨hreg, hpc⟩ ⟨hreg', hpc'⟩ => ⟨hreg'.trans hreg, hpc'.trans hpc⟩
  spend _ := ⟨rfl, rfl⟩
  cancelled _ _ := ⟨rfl, rfl⟩
  reg s v := ⟨s.reg_setReg_of_ne (by decide) v, rfl⟩
  cond _ _ := ⟨rfl, rfl⟩
  emit _ _ := ⟨rfl, rfl⟩
  input _ _ := ⟨rfl, rfl⟩
  hold _ _ := ⟨rfl, rfl⟩

/-- Settles O31: the entry writes the return address, and no service touches R7 or `pc` after it. -/
theorem trapSavesReturnAddress : Obligations.TrapSavesReturnAddress := by
  intro i s t hi hquiet h
  obtain ⟨service, hexec, hkeeps⟩ := exists_service_of_isTrap hi
  rw [hexec, perform_trapTo_quiet service hquiet] at h
  obtain ⟨hreg, hpc⟩ := ((hkeeps LinkKept.serviceKept fun _ _ => ⟨rfl, rfl⟩).next h).elim id id
  exact ⟨hreg.trans (State.reg_setReg_self _ linkReg s.pc), hpc⟩

/-! ### What every step keeps -/

/-- What a relation must satisfy to be kept by every step: to be kept by every operation on a state. -/
structure StepKept (R : State → State → Prop) : Prop extends Kept R R where
  setReg : ∀ s r v, R s (s.setReg r v)
  setPc : ∀ s v, R s (s.setPc v)
  setCond : ∀ s c, R s (s.setCond c)
  setRun : ∀ s r, R s (s.setRun r)
  setInflight : ∀ s p, R s (s.setInflight p)
  setInput : ∀ s ks, R s (s.setInput ks)
  emit : ∀ s bs, R s (s.emit bs)
  store : ∀ s a v, R s (s.store a v)
  afterRead : ∀ s a, R s (s.afterRead a)

theorem StepKept.serviceKept (h : StepKept R) : ServiceKept R R :=
  ⟨h.toKept, fun s v => h.setReg s serviceReg v, h.setCond, h.emit, h.setInput, fun s p => h.setInflight s (some p)⟩

theorem StepKept.instrKept (h : StepKept R) (i : Instr) : InstrKept i R R where
  toKept := h.toKept
  setReg r _ s := h.setReg s r
  setCond _ := h.setCond
  setPc _ := h.setPc
  afterRead _ := h.afterRead
  store _ := h.store
  emit _ := h.emit
  setInput _ := h.setInput
  hold p _ s := h.setInflight s (some p)
  halt _ s := h.setRun s .halted
  fault kind info _ s := h.setRun s (.faulted kind info)

theorem StepKept.step (h : StepKept R) (hs : step s = .next t) : R s t := by
  have hfetch := Keeps.fetch h.toKept h.afterRead h.setPc s
  obtain ⟨-, ⟨p, -, hp⟩ | ⟨-, e, hf⟩ | ⟨-, w, u, i, hf, hi⟩⟩ := step_cases hs
  · exact h.trans _ _ _ (h.setInflight s none) (((h.serviceKept.serviceRest p).next hp).elim id id)
  · rwa [hf] at hfetch
  · rw [hf] at hfetch
    exact h.trans _ _ _ hfetch (((h.instrKept i).exec hi).elim id id)

/-- The output grows and the open parameters stay. -/
def OutGrows (s t : State) : Prop := s.out <+: t.out ∧ t.params = s.params

theorem OutGrows.trans {s t u : State} : OutGrows s t → OutGrows t u → OutGrows s u :=
  fun ⟨hout, hparams⟩ ⟨hout', hparams'⟩ => ⟨hout.trans hout', hparams'.trans hparams⟩

theorem OutGrows.of_eq (hout : t.out = s.out) (hparams : t.params = s.params) : OutGrows s t :=
  ⟨hout ▸ List.prefix_rfl, hparams⟩

theorem OutGrows.stepKept : StepKept OutGrows where
  refl _ := .of_eq rfl rfl
  trans _ _ _ := OutGrows.trans
  early _ _ _ := OutGrows.trans
  spend _ := .of_eq rfl rfl
  cancelled _ _ := ⟨List.prefix_append _ _, rfl⟩
  setReg _ _ _ := .of_eq rfl rfl
  setPc _ _ := .of_eq rfl rfl
  setCond _ _ := .of_eq rfl rfl
  setRun _ _ := .of_eq rfl rfl
  setInflight _ _ := .of_eq rfl rfl
  setInput _ _ := .of_eq rfl rfl
  emit _ _ := ⟨List.prefix_append _ _, rfl⟩
  store _ _ _ := .of_eq rfl rfl
  afterRead s a := .of_eq (s.afterRead_out a) (s.afterRead_params a)

/-- Settles O56: one step makes the output grow, and growth adds up along a run. -/
theorem outputOnlyGrows : Obligations.OutputOnlyGrows :=
  fun _ _ _ h => Run.keeps OutGrows.stepKept.refl OutGrows.trans OutGrows.stepKept.step h

/-! ### The invariant -/

/-- Memory keeps its canonical form. -/
def WfKept (s t : State) : Prop := s.mem.wf → t.mem.wf

theorem WfKept.stepKept : StepKept WfKept where
  refl _ := id
  trans _ _ _ h h' := h' ∘ h
  early _ _ _ h h' := h' ∘ h
  spend _ := id
  cancelled _ _ := id
  setReg _ _ _ := id
  setPc _ _ := id
  setCond _ _ := id
  setRun _ _ := id
  setInflight _ _ := id
  setInput _ _ := id
  emit _ _ := id
  store _ a v h := State.store_wf h a v
  afterRead _ a h := State.afterRead_wf h a

/-- The service in flight and the run state, at the end of a rule other than HALT's. -/
def HoldKept (s t : State) : Prop := t.inflight = s.inflight ∧ t.run = s.run

/-- A rule that ends early is held, which leaves the run state, or it ends for good, which leaves the service. -/
def HeldOrEnded (s t : State) : Prop := t.inflight = s.inflight ∨ t.run = s.run

theorem HoldKept.kept : Kept HoldKept HeldOrEnded where
  refl _ := ⟨rfl, rfl⟩
  trans _ _ _ := fun ⟨hp, hrun⟩ ⟨hp', hrun'⟩ => ⟨hp'.trans hp, hrun'.trans hrun⟩
  early _ _ _ := fun ⟨hp, hrun⟩ h => h.imp (·.trans hp) (·.trans hrun)
  spend _ := ⟨rfl, rfl⟩
  cancelled _ _ := .inl rfl

theorem HoldKept.serviceKept : ServiceKept HoldKept HeldOrEnded where
  toKept := HoldKept.kept
  reg _ _ := ⟨rfl, rfl⟩
  cond _ _ := ⟨rfl, rfl⟩
  emit _ _ := ⟨rfl, rfl⟩
  input _ _ := ⟨rfl, rfl⟩
  hold _ _ := .inr rfl

theorem HeldOrEnded.of_kept (h : HoldKept s t ∨ HeldOrEnded s t) : HeldOrEnded s t := h.elim (fun h => .inl h.1) id

theorem HoldKept.instrKept (hi : i ≠ .trapHalt) : InstrKept i HoldKept HeldOrEnded where
  toKept := HoldKept.kept
  setReg _ _ _ _ := ⟨rfl, rfl⟩
  setCond _ _ _ := ⟨rfl, rfl⟩
  setPc _ _ _ := ⟨rfl, rfl⟩
  afterRead _ s a := ⟨s.afterRead_inflight a, s.afterRead_run a⟩
  store _ _ _ _ := ⟨rfl, rfl⟩
  emit _ _ _ := ⟨rfl, rfl⟩
  setInput _ _ _ := ⟨rfl, rfl⟩
  hold _ _ _ := .inr rfl
  halt hhalt := absurd hhalt hi
  fault _ _ _ _ := .inl rfl

/-- An instruction that leaves a service in flight is a TRAP that was entered and is held. -/
theorem exec_of_inflight_ne (hne : t.inflight ≠ s.inflight) (h : exec i s = .next t) :
    t.run = s.run ∧ t.reg linkReg = t.pc := by
  obtain ⟨p, hp⟩ : ∃ p, i.mayHold p := by
    by_contra hnone
    exact hne (exec_inflight (not_exists.mp hnone) h)
  have hi : i.isTrap = true ∧ i ≠ .trapHalt := by
    rcases Instr.eq_of_mayHold hp with rfl | rfl | rfl | rfl <;> exact ⟨rfl, nofun⟩
  refine ⟨(HeldOrEnded.of_kept ((HoldKept.instrKept hi.2).exec h)).resolve_left hne, ?_⟩
  rcases s.quiet_or_struck with hquiet | hstruck
  · obtain ⟨hreg, hpc⟩ := trapSavesReturnAddress i s t hi.1 hquiet h
    exact hreg.trans hpc.symm
  · obtain ⟨service, hexec, -⟩ := exists_service_of_isTrap hi.1
    rw [hexec, perform_trapTo_struck service hstruck] at h
    exact absurd (Host.Outcome.next.inj h ▸ rfl) hne

theorem fetch_ok_holdKept {w : Word} (hf : fetch s = .ok w t) : HoldKept s t := by
  have h := Keeps.fetch HoldKept.kept (fun s a => ⟨s.afterRead_inflight a, s.afterRead_run a⟩) (fun _ _ => ⟨rfl, rfl⟩) s
  rwa [hf] at h

theorem fetch_error_inflight {e : Stop} (hf : fetch s = .error e t) : t.inflight = s.inflight := by
  have h := Keeps.fetch (Kept.eq (·.inflight) (fun _ => rfl) fun _ => rfl) (fun s a => s.afterRead_inflight a)
    (fun _ _ => rfl) s
  rwa [hf] at h

/-- Settles O55: memory keeps its form under every operation, and a service is left in flight only by a TRAP that was
entered, or by one that was in flight already and has kept R7 and `pc`. -/
theorem invariantKeptByStep : Obligations.InvariantKeptByStep := by
  intro s t ⟨hwf, hheld⟩ hs
  refine ⟨WfKept.stepKept.step hs hwf, fun hne => ?_⟩
  obtain ⟨hrun, ⟨p, hp, hresume⟩ | ⟨hidle, e, hf⟩ | ⟨hidle, w, u, i, hf, hi⟩⟩ := step_cases hs
  · have hlink : LinkKept (s.setInflight none) t := ((LinkKept.serviceKept.serviceRest p).next hresume).elim id id
    have hhold : HeldOrEnded (s.setInflight none) t := .of_kept ((HoldKept.serviceKept.serviceRest p).next hresume)
    obtain ⟨-, hsaved⟩ := hheld (by simp [hp])
    exact ⟨(hhold.resolve_left hne).trans hrun, hlink.1.trans (hsaved.trans hlink.2.symm)⟩
  · exact absurd ((fetch_error_inflight hf).trans hidle) hne
  · obtain ⟨hinflight, hrun'⟩ := fetch_ok_holdKept hf
    obtain ⟨hrun'', hsaved⟩ := exec_of_inflight_ne (hinflight.trans hidle ▸ hne) hi
    exact ⟨hrun''.trans (hrun'.trans hrun), hsaved⟩

end Sys2Proof.Machine
end

section
/-! Cancellation (40_execution_cycle.md R90). Statements run with a cancellation raised either do what they do without it,
with some actions counted off, or end in CANCELLED after a first part of their output: this holds of a primitive action,
passes to statements in order, and so holds of every rule. -/

namespace Sys2Proof.Machine

variable {α β : Type}

/-! ### Cancellation at once -/

/-- The first action of the rest of a service is struck. -/
theorem serviceRest_struck (p : Service) {s : State} (hstruck : s.cancel = some 0) :
    serviceRest p s = .error .cancelled s.enterCancelled := by
  cases p with
  | getc => exact bind_of_error (primitive_struck _ hstruck)
  | inn => exact bind_of_error (primitive_struck _ hstruck)
  | puts a => exact bind_of_error (primitive_struck _ hstruck)
  | putsp a => exact bind_of_error (primitive_struck _ hstruck)

theorem fetch_struck {s : State} (hstruck : s.cancel = some 0) : fetch s = .error .cancelled s.enterCancelled := by
  rw [fetch, bind_look]
  exact bind_of_error (primitive_struck _ hstruck)

/-- Settles O57: a step begins with the first action of a service or of the fetch, before which cancellation takes
effect. -/
theorem cancellationAtOnce : Obligations.CancellationAtOnce := by
  intro s hrun hstruck
  cases hp : s.inflight with
  | some p =>
    have hstruck' : (s.setInflight none).cancel = some 0 := hstruck
    exact ⟨_, (step_of_inflight hrun hp).trans (perform_of_error (serviceRest_struck p hstruck')), rfl, rfl, rfl, rfl, rfl,
      rfl, rfl, rfl⟩
  | none =>
    exact ⟨_, step_of_fetch_error hrun hp (fetch_struck hstruck), rfl, rfl, rfl, rfl, rfl, rfl, rfl, rfl⟩

/-! ### Cancellation within a rule -/

/-- The state with another point of cancellation. -/
def State.withCancel (s : State) (c : Option Nat) : State := { s with cancel := c }

/-- How statements end, with another point of cancellation in the state they leave. -/
def endedWithCancel (c : Option Nat) : Ended α → Ended α
  | .ok a s => .ok a (s.withCancel c)
  | .error e s => .error e (s.withCancel c)

@[simp] theorem endState_endedWithCancel (c : Option Nat) (r : Ended α) :
    endState (endedWithCancel c r) = (endState r).withCancel c := by cases r <;> rfl

/-- Where statements go from `s` to `u` when they are let complete, `t` is CANCELLED after a first part of their output. -/
def CutShort (s u t : State) : Prop :=
  t.run = .cancelled ∧ ∃ e, s.out ++ e <+: u.out ∧ t.out = s.out ++ e ++ s.params.cancelNotice

theorem CutShort.of_later {s u v t : State} (h : CutShort s u t) (huv : OutGrows u v) : CutShort s v t := by
  obtain ⟨hrun, e, hprefix, hout⟩ := h
  exact ⟨hrun, e, hprefix.trans huv.1, hout⟩

theorem CutShort.of_earlier {s u v t : State} (hsu : OutGrows s u) (h : CutShort u v t) : CutShort s v t := by
  obtain ⟨⟨e₀, he₀⟩, hparams⟩ := hsu
  obtain ⟨hrun, e, hprefix, hout⟩ := h
  refine ⟨hrun, e₀ ++ e, ?_, ?_⟩
  · rwa [← List.append_assoc, he₀]
  · rw [hout, hparams, ← he₀, List.append_assoc s.out]

/-- What holds of statements that are started with no cancellation raised: they raise none, their output grows, and from the
same state with a cancellation they end the same with some of its actions counted off, or are cut short. -/
structure Cuts (m : Exec α) (s : State) : Prop where
  grows : OutGrows s (endState (m s))
  quiet : (endState (m s)).cancel = none
  cut : ∀ n, (∃ k ≤ n, m (s.withCancel (some n)) = endedWithCancel (some k) (m s)) ∨
    ∃ t, m (s.withCancel (some n)) = .error .cancelled t ∧ CutShort s (endState (m s)) t

/-- Statements that may be cut short from every state. -/
def Cuttable (m : Exec α) : Prop := ∀ s : State, s.cancel = none → Cuts m s

theorem Cuttable.pure (a : α) : Cuttable (Pure.pure a : Exec α) :=
  fun _ hs => ⟨.of_eq rfl rfl, hs, fun n => .inl ⟨n, Nat.le_refl n, rfl⟩⟩

/-- A value read by a statement that is no primitive action may not depend on the cancellation. -/
theorem Cuttable.look {f : State → α} (hf : ∀ s c, f (State.withCancel s c) = f s) : Cuttable (look f) :=
  fun s hs => ⟨.of_eq rfl rfl, hs, fun n => .inl ⟨n, Nat.le_refl n, by
    rw [look_apply, look_apply, hf]
    rfl⟩⟩

theorem Cuttable.bind {m : Exec α} {f : α → Exec β} (hm : Cuttable m) (hf : ∀ a, Cuttable (f a)) : Cuttable (m >>= f) := by
  intro s hs
  obtain ⟨hgrows, hquiet, hcut⟩ := hm s hs
  cases hres : m s with
  | ok a u =>
    rw [hres] at hgrows hquiet hcut
    obtain ⟨hgrows', hquiet', hcut'⟩ := hf a u hquiet
    refine ⟨?_, ?_, fun n => ?_⟩ <;> rw [bind_of_ok hres]
    · exact hgrows.trans hgrows'
    · exact hquiet'
    · rcases hcut n with ⟨k, hk, hrun⟩ | ⟨t, hrun, hshort⟩
      · rw [bind_of_ok hrun]
        rcases hcut' k with ⟨k', hk', hrun'⟩ | ⟨t, hrun', hshort⟩
        · exact .inl ⟨k', hk'.trans hk, hrun'⟩
        · exact .inr ⟨t, hrun', .of_earlier hgrows hshort⟩
      · exact .inr ⟨t, bind_of_error hrun, hshort.of_later hgrows'⟩
  | error e u =>
    rw [hres] at hgrows hquiet hcut
    refine ⟨?_, ?_, fun n => ?_⟩ <;> rw [bind_of_error hres]
    · exact hgrows
    · exact hquiet
    · rcases hcut n with ⟨k, hk, hrun⟩ | ⟨t, hrun, hshort⟩
      · exact .inl ⟨k, hk, bind_of_error hrun⟩
      · exact .inr ⟨t, bind_of_error hrun, hshort⟩

/-- A primitive action is cut short before it or not at all. -/
theorem Cuttable.primitive {body : State → Ended α} (hgrows : ∀ s, OutGrows s (endState (body s)))
    (hcomm : ∀ s c, body (State.withCancel s c) = endedWithCancel c (body s)) : Cuttable (primitive body) := by
  intro s hs
  have hs' : s.withCancel none = s := by rw [← hs]; rfl
  have hnone : Machine.primitive body s = body s := by rw [primitive_quiet _ (s.quiet_of_none hs 1), State.spend_of_none hs]
  refine ⟨hnone ▸ hgrows s, ?_, fun n => ?_⟩
  · rw [hnone, ← hs', hcomm, endState_endedWithCancel]
    rfl
  · rw [hnone]
    cases n with
    | zero => exact .inr ⟨_, primitive_struck _ rfl, rfl, [], by simpa using (hgrows s).1, by simp [State.withCancel]⟩
    | succ n => exact .inl ⟨n, Nat.le_succ n, hcomm s (some n)⟩

theorem Cuttable.act {f : State → State} (hgrows : ∀ s, OutGrows s (f s))
    (hcomm : ∀ s c, f (State.withCancel s c) = (f s).withCancel c) : Cuttable (act f) :=
  Cuttable.primitive hgrows fun s c => congrArg (EStateM.Result.ok ()) (hcomm s c)

/-! ### The primitive actions -/

theorem State.poll_withCancel (s : State) (c : Option Nat) : (s.withCancel c).poll = s.poll.withCancel c := by
  cases s with | mk _ _ _ _ _ _ input _ _ _ =>
  cases input with
  | nil => rfl
  | cons k ks =>
    obtain ⟨unseen, code⟩ := k
    cases unseen <;> rfl

theorem State.afterRead_withCancel (s : State) (a : Word) (c : Option Nat) :
    (s.withCancel c).afterRead a = (s.afterRead a).withCancel c := by
  by_cases ha : a = kbsrAddr
  · rw [ha, State.afterRead_kbsrAddr, State.afterRead_kbsrAddr, State.poll_withCancel]
  · rw [State.afterRead_of_ne _ ha, State.afterRead_of_ne _ ha]

theorem State.readValue_withCancel (s : State) (a : Word) (c : Option Nat) :
    (s.withCancel c).readValue a = s.readValue a := by
  rw [State.readValue, State.afterRead_withCancel]
  rfl

namespace Cuttable

theorem setReg (r : Reg) (v : Word) : Cuttable (setReg r v) := act (fun _ => .of_eq rfl rfl) fun _ _ => rfl
theorem setPc (v : Word) : Cuttable (setPc v) := act (fun _ => .of_eq rfl rfl) fun _ _ => rfl
theorem setCC (v : Word) : Cuttable (setCC v) := act (fun _ => .of_eq rfl rfl) fun _ _ => rfl
theorem memWrite (a v : Word) : Cuttable (memWrite a v) := act (fun _ => .of_eq rfl rfl) fun _ _ => rfl
theorem outByte (b : Byte) : Cuttable (outByte b) := act (fun _ => ⟨List.prefix_append _ _, rfl⟩) fun _ _ => rfl
theorem halt : Cuttable halt := act (fun _ => .of_eq rfl rfl) fun _ _ => rfl

theorem memRead (a : Word) : Cuttable (memRead a) :=
  primitive (fun s => .of_eq (s.afterRead_out a) (s.afterRead_params a)) fun s c => by
    rw [s.readValue_withCancel, s.afterRead_withCancel]
    rfl

theorem rawRead (a : Word) : Cuttable (rawRead a) := primitive (fun _ => .of_eq rfl rfl) fun _ _ => rfl

theorem raiseFault (kind : FaultKind) (info : Word) : Cuttable (raiseFault kind info) :=
  primitive (fun _ => .of_eq rfl rfl) fun _ _ => rfl

theorem inRead (p : Service) : Cuttable (inRead p) := by
  refine primitive (fun s => ?_) fun s c => ?_
  · cases s.input <;> exact .of_eq rfl rfl
  · have hinput : (s.withCancel c).input = s.input := rfl
    rw [hinput]
    cases s.input <;> rfl

/-! ### The rules -/

theorem outBytes : ∀ bs : List Byte, Cuttable (outBytes bs)
  | [] => Cuttable.pure ()
  | b :: bs => (outByte b).bind fun _ => outBytes bs

theorem writeResult (dr : Reg) (v : Word) : Cuttable (writeResult dr v) := (setReg dr v).bind fun _ => setCC v

theorem saveReturn : Cuttable saveReturn := (Cuttable.look fun _ _ => rfl).bind fun _ => setReg linkReg _

theorem callVia {target : State → Word} (htarget : ∀ s c, target (State.withCancel s c) = target s) :
    Cuttable (callVia target) :=
  saveReturn.bind fun _ => (Cuttable.look htarget).bind setPc

theorem loadFrom (dr : Reg) (a : Word) : Cuttable (loadFrom dr a) := (memRead a).bind (writeResult dr)

theorem storeTo (sr : Reg) (a : Word) : Cuttable (storeTo sr a) := (Cuttable.look fun _ _ => rfl).bind (memWrite a)

theorem takeChar (c : Byte) : Cuttable (takeChar c) := (Cuttable.look fun _ _ => rfl).bind fun _ => writeResult _ _

theorem trapTo {service : Exec Unit} (h : Cuttable service) : Cuttable (trapTo service) := saveReturn.bind fun _ => h

theorem stringLoop (bytes : Word → List Byte) (again : Word → Service) : ∀ (n : Nat) (a : Word),
    Cuttable (stringLoop bytes again n a)
  | 0, _ => fun _ hs => ⟨.of_eq rfl rfl, hs, fun n => .inl ⟨n, Nat.le_refl n, rfl⟩⟩
  | n + 1, a => (rawRead a).bind fun w => by
    split
    · exact Cuttable.pure ()
    · exact (outBytes _).bind fun _ => stringLoop bytes again n (a + 1)

theorem stringFrom (bytes : Word → List Byte) (again : Word → Service) : Cuttable (stringFrom bytes again) :=
  (Cuttable.look fun _ _ => rfl).bind fun a => stringLoop bytes again stringReads a

theorem unknownTrap (w : Word) : Cuttable (unknownTrap w) := by
  refine (Cuttable.look fun _ _ => rfl).bind fun policy => ?_
  cases policy with
  | fault => exact raiseFault .unknownTrap w
  | noop => exact Cuttable.pure ()

theorem serviceInRead : Cuttable serviceInRead :=
  (inRead .inn).bind fun c => (outByte c).bind fun _ => takeChar c

theorem serviceIn : Cuttable serviceIn :=
  (Cuttable.look fun _ _ => rfl).bind fun _ => (outBytes _).bind fun _ => serviceInRead

theorem serviceHalt : Cuttable serviceHalt :=
  (Cuttable.look fun _ _ => rfl).bind fun _ => (outBytes _).bind fun _ => halt

theorem rule (i : Instr) : Cuttable (rule i) := by
  cases i with
  | addReg dr a b => exact (Cuttable.look fun _ _ => rfl).bind (writeResult dr)
  | addImm dr a imm => exact (Cuttable.look fun _ _ => rfl).bind (writeResult dr)
  | andReg dr a b => exact (Cuttable.look fun _ _ => rfl).bind (writeResult dr)
  | andImm dr a imm => exact (Cuttable.look fun _ _ => rfl).bind (writeResult dr)
  | not dr a => exact (Cuttable.look fun _ _ => rfl).bind (writeResult dr)
  | br nzp off =>
    refine (Cuttable.look fun _ _ => rfl).bind fun c => ?_
    split
    · exact (Cuttable.look fun _ _ => rfl).bind setPc
    · exact Cuttable.pure ()
  | jmp b => exact (Cuttable.look fun _ _ => rfl).bind setPc
  | jsr off => exact callVia fun _ _ => rfl
  | jsrr b => exact callVia fun _ _ => rfl
  | ld dr off => exact (Cuttable.look fun _ _ => rfl).bind (loadFrom dr)
  | ldi dr off => exact (Cuttable.look fun _ _ => rfl).bind fun ea => (memRead ea).bind (loadFrom dr)
  | ldr dr b off => exact (Cuttable.look fun _ _ => rfl).bind (loadFrom dr)
  | lea dr off => exact (Cuttable.look fun _ _ => rfl).bind (writeResult dr)
  | st sr off => exact (Cuttable.look fun _ _ => rfl).bind (storeTo sr)
  | sti sr off => exact (Cuttable.look fun _ _ => rfl).bind fun ea => (memRead ea).bind (storeTo sr)
  | str sr b off => exact (Cuttable.look fun _ _ => rfl).bind (storeTo sr)
  | trapGetc => exact trapTo ((inRead .getc).bind takeChar)
  | trapOut => exact trapTo ((Cuttable.look fun _ _ => rfl).bind fun _ => outByte _)
  | trapPuts => exact trapTo (stringFrom _ _)
  | trapIn => exact trapTo serviceIn
  | trapPutsp => exact trapTo (stringFrom _ _)
  | trapHalt => exact trapTo serviceHalt
  | trapOther ign vec => exact trapTo (unknownTrap _)
  | rti ign => exact raiseFault _ _
  | res ign => exact raiseFault _ _

end Cuttable

/-- Settles O58: the rule of the instruction, from the state with no cancellation raised. -/
theorem cancellationCutsTheInstructionShort : Obligations.CancellationCutsTheInstructionShort := by
  intro i s u t n hwhole hcut
  rw [exec_eq_perform, perform_eq_next] at hwhole hcut
  obtain ⟨-, -, hcuts⟩ := Cuttable.rule i (s.withCancel none) rfl
  rcases hcuts n with ⟨m, hm, hend⟩ | ⟨t', hend, hshort⟩
  · refine .inl ⟨m, hm, ?_⟩
    calc t = endState (rule i ((s.withCancel none).withCancel (some n))) := hcut.symm
      _ = (endState (rule i (s.withCancel none))).withCancel (some m) := by rw [hend, endState_endedWithCancel]
      _ = u.withCancel (some m) := congrArg (State.withCancel · (some m)) hwhole
  · obtain rfl : t' = t := by
      rw [← hcut]
      exact (congrArg endState hend).symm
    obtain ⟨hrun, e, hprefix, hout⟩ := hshort
    exact .inr ⟨hrun, e, hwhole ▸ hprefix, hout⟩

end Sys2Proof.Machine
end
